-- ==== Sys2Proof/Word.lean ====
section
/-! DEFINITION. The word types of the Vole machine CORE (00_scope.md R7, R8). -/
namespace Sys2Proof

/-- An 8-bit value (00_scope.md R8). -/
abbrev Byte := BitVec 8

/-- The 16-bit binary form of an instruction word (30_encoding.md R81). -/
abbrev Word := BitVec 16

/-- One hex digit of an instruction word (30_encoding.md R82). -/
abbrev Nibble := BitVec 4

/-- A 7-bit ASCII code, the unit of the cell-0 text (10_state.md R33). -/
abbrev Ascii := BitVec 7

/-- A register index, 0..15 (10_state.md R21, R23). -/
abbrev Reg := Fin 16

/-- A JumpIfEqual target, 0..99 (30_encoding.md R85, R97). -/
abbrev Target := Fin 100

/-- A token of LOAD's input: a string of bytes (30_encoding.md R86). -/
abbrev Token := List Byte

end Sys2Proof
end

