-- ==== Sys2Proof/Machine/FloatCodec.lean ====
section
/-! DEFINITION. The float-8 codec (40_float_codec.md).

`f8Decode` and `f8Encode` are the rules R122 and R124 over the rationals. `f8Scaled` and `f8EncodeInt` are the exact
integer forms of R122 and R126; AddFloat computes with them (log entry 14). -/
namespace Sys2Proof.Machine

/-- The sign bit, `b[7]` (40_float_codec.md R120). -/
def f8Sign (b : Byte) : Bool := b.getLsbD 7

/-- The exponent field, `b[6:4]`, bias 4 (40_float_codec.md R120). -/
def f8Exponent (b : Byte) : Nat := (b.extractLsb' 4 3).toNat

/-- The mantissa field, `b[3:0]` (40_float_codec.md R120). -/
def f8Mantissa (b : Byte) : Nat := (b.extractLsb' 0 4).toNat

/-- The code with sign `sign`, exponent field `e` and mantissa field `m` (40_float_codec.md R120). -/
def f8Pack (sign : Bool) (e m : Nat) : Byte :=
  BitVec.ofBool sign ++ BitVec.ofNat 3 e ++ BitVec.ofNat 4 m

/-! ### Over the rationals -/

/-- `F8Decode(b)` (40_float_codec.md R122). -/
def f8Decode (b : Byte) : ℚ :=
  (if f8Sign b then -1 else 1) * (1 + (f8Mantissa b : ℚ) / 16) * (2 : ℚ) ^ ((f8Exponent b : ℤ) - 4)

/-- `F8Encode(q)` (40_float_codec.md R124). `Int.log 2 a` is `floor(log2 a)`, computed exactly (D14). The zero case is
the spec's decision D13 (log entry 17). -/
def f8Encode (q : ℚ) : Byte :=
  let a := |q|
  let e := Int.log 2 a
  if q = 0 then 0x00#8
  else if 7 < e + 4 then f8Pack (q < 0) 7 0xF
  else if e + 4 < 0 then f8Pack (q < 0) 0 0
  else f8Pack (q < 0) (e + 4).toNat (⌊a / (2 : ℚ) ^ e * 16⌋ % 16).toNat

/-! ### Over the integers, scaled by 256 -/

/-- `M(b)`, 256 times the value of `b` (40_float_codec.md R122). -/
def f8Scaled (b : Byte) : Int :=
  (if f8Sign b then -1 else 1) * (((16 + f8Mantissa b) * 2 ^ f8Exponent b : Nat) : Int)

/-- `F8EncodeInt(S)`, the code of `S / 256` (40_float_codec.md R126); `p` is `bitlength(|S|) - 1`. The zero case is the
spec's decision D13 (log entry 17). -/
def f8EncodeInt (n : Int) : Byte :=
  let p := Nat.log2 n.natAbs
  if n = 0 then 0x00#8
  else if 11 < p then f8Pack (n < 0) 7 0xF
  else if p < 4 then f8Pack (n < 0) 0 0
  else f8Pack (n < 0) (p - 4) (n.natAbs / 2 ^ (p - 4) % 16)

end Sys2Proof.Machine
end

