-- ==== Sys2Proof/Machine/Operands.lean ====
section
/-! DEFINITION. The operand forms and the integer readings of a byte (30_encoding.md R84; 00_scope.md R8). -/
namespace Sys2Proof.Machine

/-- The effective address of opcodes 1 and 3: the operand byte, zero-extended (20_memory.md R51, 30_encoding.md R84). -/
def directAddress (a : Byte) : Int := a.toNat

/-- The address field that selects the accumulator form of StoreToMemory (30_encoding.md R84, R98). -/
def isAccumulatorForm (a : Byte) : Bool := a == 0x00#8

/-- The fixed source of CopyRegister, x10 (10_state.md R22). -/
def copySource : Reg := 10

/-- The implicit comparand of JumpIfEqual, x0 (10_state.md R22). -/
def comparand : Reg := 0

/-- `sext_8`: the signed reading of a byte (00_scope.md R8). -/
def sext8 (b : Byte) : Int := if b.toNat < 128 then b.toNat else b.toNat - 256

/-- `trunc_8`: an integer modulo 256 (00_scope.md R8). -/
def trunc8 (n : Int) : Byte := BitVec.ofNat 8 (n % 256).toNat

end Sys2Proof.Machine
end

