-- ==== Sys2Proof/Config.lean ====
section
/-! DEFINITION. The implementation parameters that 00_scope.md R6 leaves OPEN.

`RUN_RESETS_PC`, `ACC_PREFIX` and `READ_TEXT` are constants with no body: whatever is proved holds for every value
of them (log entries 2, 3, 4). The two capacities have the spec's own default, unbounded (log entries 5, 6).
`REG_INIT` is the argument of `Machine.State.construct` (log entry 1). `PC_WIDTH` has no constant: the pc is an
unbounded integer (log entry 7). -/
namespace Sys2Proof

/-- `RUN_RESETS_PC`: whether RUN sets the pc to 0 (45_loader_and_host.md R231, 92_eei_decisions.md D11). -/
opaque Config.runResetsPc : Bool

/-- `ACC_PREFIX`: the text that a nonzero byte in cell 0 contributes before an append (20_memory.md R56, D16).
It is applied to nonzero bytes only. -/
opaque Config.accPrefix : Byte → List Ascii

/-- `READ_TEXT`: the byte that LoadFromMemory reads from cell 0 when it holds text (20_memory.md R52, D17).
It is applied to non-empty texts only. -/
opaque Config.readText : List Ascii → Byte

/-- `ACC_CAPACITY`: the most codes the cell-0 text may hold. DESIGN CHOICE (log entry 5): `none`, the default that
92_eei_decisions.md D18 gives; 20_memory.md R57 says the accumulator is unbounded in the model. -/
def Config.accCapacity : Option Nat := none

/-- `PROG_CAPACITY`: the most slots the program store may hold. DESIGN CHOICE (log entry 6): `none`, the default that
92_eei_decisions.md D19 gives; 10_state.md R34 says the store is unbounded in the model. -/
def Config.progCapacity : Option Nat := none

end Sys2Proof
end

