-- ==== Sys2Proof/Syntax.lean ====
section
/-! DEFINITION. The decoded instructions (30_encoding.md R88, R97): one constructor per row of opcode_table.json. -/
namespace Sys2Proof

/-- A decoded instruction, "a closed tagged union/sum type", one constructor per opcode (30_encoding.md R97). The
field types admit exactly the operands an admitted word can carry. -/
inductive Instr where
  /-- LOADM, opcode 1: `x[r] <- MemRead(a)` (41_data_transfer.md R140). -/
  | loadMem (r : Reg) (a : Byte)
  /-- LOADI, opcode 2: `x[r] <- v` (41_data_transfer.md R141). -/
  | loadImm (r : Reg) (v : Byte)
  /-- STORE, opcode 3: a store, or with `a = 0` an append to cell 0 (41_data_transfer.md R142). -/
  | store (r : Reg) (a : Byte)
  /-- COPY, opcode 4: `x[d] <- x[10]` (41_data_transfer.md R143). -/
  | copy (d : Reg)
  /-- ADD, opcode 5: the two's-complement sum (42_arithmetic.md R160). -/
  | addInt (d s t : Reg)
  /-- ADDF, opcode 6: the float-8 sum (42_arithmetic.md R161). -/
  | addFloat (d s t : Reg)
  /-- JEQ, opcode B: jump to slot `t` when `x[r] = x[0]` (43_control_transfer.md R180). -/
  | jumpEq (r : Reg) (t : Target)
  /-- HALT, opcode C (43_control_transfer.md R181). -/
  | halt
  deriving DecidableEq, Repr

end Sys2Proof
end

