-- ==== Sys2Proof/WellFormed.lean ====
section
/-! DEFINITION. Well-formedness: the words and tokens that 30_encoding.md R80, R88 and R96 admit.

Every term of `Instr` is well formed, since its field types carry the bounds of R97 (a register is a `Fin 16`, a jump
target a `Fin 100`); 10_state.md R23 calls that exact. What can be ill formed is the word or the token an instruction
is read from, so the checks are on those. -/
namespace Sys2Proof

/-- The opcode digit is one of the eight of the opcode map (30_encoding.md R88). -/
def WellFormed.opcodeListed (w : Word) : Bool :=
  [0x1, 0x2, 0x3, 0x4, 0x5, 0x6, 0xB, 0xC].contains (w.extractLsb' 12 4).toNat

/-- A word of opcode 4 has register digit 0 (30_encoding.md R88, R96). -/
def WellFormed.copyFieldZero (w : Word) : Bool :=
  w.extractLsb' 12 4 != 0x4#4 || w.extractLsb' 8 4 == 0x0#4

/-- A word of opcode B has two decimal operand digits (30_encoding.md R88, R96). -/
def WellFormed.targetDecimal (w : Word) : Bool :=
  w.extractLsb' 12 4 != 0xB#4 || ((w.extractLsb' 4 4).toNat ≤ 9 && (w.extractLsb' 0 4).toNat ≤ 9)

/-- An admitted word in its binary form (30_encoding.md R81, R88, R96). -/
def WellFormed.word (w : Word) : Bool :=
  WellFormed.opcodeListed w && WellFormed.copyFieldZero w && WellFormed.targetDecimal w

/-- A token has exactly four characters (30_encoding.md R80). -/
def WellFormed.tokenLength (t : Token) : Bool := t.length == 4

/-- Every character is one of `0`..`9` (0x30..0x39) and `A`..`F` (0x41..0x46): the class `UHEX` of 30_encoding.md R87. -/
def WellFormed.tokenUppercaseHex (t : Token) : Bool :=
  t.all fun c => (0x30 ≤ c.toNat && c.toNat ≤ 0x39) || (0x41 ≤ c.toNat && c.toNat ≤ 0x46)

/-- The shape of a token that can be an admitted word (30_encoding.md R81). -/
def WellFormed.token (t : Token) : Bool :=
  WellFormed.tokenLength t && WellFormed.tokenUppercaseHex t

end Sys2Proof
end

