-- ==== Sys2Proof/Decode.lean ====
section
/-! DEFINITION. The decoder and, after it, the encoder (30_encoding.md).

The hardware reads an instruction as a text token of four characters (R80). `decodeToken` is R90's `Decode`, total on
every byte string and rejecting by name; `decodeWord` reads the binary form of R81. `splitTokens` is the loader's
tokenizer (R86). -/
namespace Sys2Proof

/-- The four diagnostic kinds (60_exceptions.md R262). -/
inductive DiagKind where
  /-- Malformed hex in a token. -/
  | invalidEncoding
  /-- A token that is not four characters long. -/
  | invalidInstructionLength
  /-- An opcode character that is not listed. -/
  | invalidOpcode
  /-- A StoreToMemory to cell 0 with a value above 127. -/
  | outOfAsciiRange
  deriving DecidableEq, Repr

/-- The spec's number for each kind (60_exceptions.md R262, 92_eei_decisions.md D21). -/
def DiagKind.code : DiagKind → Nat
  | .invalidEncoding => 1
  | .invalidInstructionLength => 2
  | .invalidOpcode => 3
  | .outOfAsciiRange => 4

/-- Why an input is refused (30_encoding.md R96; the two capacities: 45_loader_and_host.md R229). -/
inductive RefuseReason where
  /-- A listed opcode with `a`..`f` in position 2, 3 or 4 (D6). -/
  | lowercaseHexDigit
  /-- An opcode-4 word whose register digit is not 0 (D8). -/
  | copyRegFieldNonZero
  /-- An opcode-B word with `A`..`F` in an operand digit (D7). -/
  | jumpTargetNotDecimal
  /-- A LOAD that would pass a bound on the program store (D19). -/
  | progCapacityExceeded
  /-- A RUN whose append would pass a bound on the accumulator (D18). -/
  | accCapacityExceeded
  deriving DecidableEq, Repr

/-- The three outcomes of `Decode` (30_encoding.md R90). -/
inductive Decoded where
  /-- An instruction and the two bytes of its word's memory image. -/
  | ok (i : Instr) (img : Byte × Byte)
  /-- A diagnostic kind; the token is skipped. -/
  | skip (kind : DiagKind)
  /-- The model gives the token no meaning. -/
  | refuse (reason : RefuseReason)
  deriving DecidableEq, Repr

/-! ### Characters -/

/-- The class of a token's character (30_encoding.md R87); an uppercase hex character carries its `hexval`. -/
inductive CharClass where
  | uhex (v : Nibble)
  | lhex
  | other
  deriving DecidableEq, Repr

/-- 30_encoding.md R87 and `hexval` of 00_scope.md R8, on the ASCII codes of the characters. -/
def classify (c : Byte) : CharClass :=
  if 0x30 ≤ c.toNat ∧ c.toNat ≤ 0x39 then .uhex (BitVec.ofNat 4 (c.toNat - 0x30))
  else if 0x41 ≤ c.toNat ∧ c.toNat ≤ 0x46 then .uhex (BitVec.ofNat 4 (c.toNat - 0x41 + 10))
  else if 0x61 ≤ c.toNat ∧ c.toNat ≤ 0x66 then .lhex
  else .other

/-- Whitespace: space, tab, line feed, vertical tab, form feed, carriage return (30_encoding.md R86). -/
def isSpace (c : Byte) : Bool := c == 0x20#8 || (0x09 ≤ c.toNat && c.toNat ≤ 0x0D)

/-- A finished token goes in front of the later ones; an empty run of characters is no token. -/
def pushToken (cur : Token) (rest : List Token) : List Token :=
  if cur.isEmpty then rest else cur :: rest

/-- The tokens of a text, `cur` being the characters of the token under way. -/
def splitTokensFrom (cur : Token) : List Byte → List Token
  | [] => pushToken cur []
  | c :: cs => if isSpace c then pushToken cur (splitTokensFrom [] cs) else splitTokensFrom (cur ++ [c]) cs

/-- The tokens of a text: the maximal runs of characters that are not whitespace (30_encoding.md R86). -/
def splitTokens (text : List Byte) : List Token := splitTokensFrom [] text

/-! ### The decode function -/

/-- A decimal digit pair's target, `10·x + y`, where both digits are decimal (30_encoding.md R84, R85). -/
def decimalTarget (x y : Nibble) : Option Target :=
  if h : x.toNat ≤ 9 ∧ y.toNat ≤ 9 then some ⟨10 * x.toNat + y.toNat, by omega⟩ else none

/-- The opcode digit is listed in the opcode map (30_encoding.md R88, R92). -/
def opcodeKnown (op : Nibble) : Bool :=
  [0x1, 0x2, 0x3, 0x4, 0x5, 0x6, 0xB, 0xC].contains op.toNat

/-- The instruction of four hex digits and its image (30_encoding.md R84, R90): the last part of `Decode`. -/
def decodeDigits (op r x y : Nibble) : Decoded :=
  let img : Byte × Byte := (op ++ r, x ++ y)
  match op.toNat with
  | 0x1 => .ok (.loadMem r.toFin (x ++ y)) img
  | 0x2 => .ok (.loadImm r.toFin (x ++ y)) img
  | 0x3 => .ok (.store r.toFin (x ++ y)) img
  | 0x4 => if r = 0#4 then .ok (.copy y.toFin) img else .refuse .copyRegFieldNonZero
  | 0x5 => .ok (.addInt r.toFin x.toFin y.toFin) img
  | 0x6 => .ok (.addFloat r.toFin x.toFin y.toFin) img
  | 0xB =>
    match decimalTarget x y with
    | some t => .ok (.jumpEq r.toFin t) img
    | none => .refuse .jumpTargetNotDecimal
  | 0xC => .ok .halt img
  | _ => .skip .invalidOpcode

/-- `Decode` on four characters (30_encoding.md R90, checks in the order of R95). -/
def decodeChars (c1 c2 c3 c4 : Byte) : Decoded :=
  match classify c1 with
  | .uhex op =>
    if opcodeKnown op then
      match classify c2, classify c3, classify c4 with
      | .uhex r, .uhex x, .uhex y => decodeDigits op r x y
      | k2, k3, k4 =>
        if k2 = .other ∨ k3 = .other ∨ k4 = .other then .skip .invalidEncoding else .refuse .lowercaseHexDigit
    else .skip .invalidOpcode
  | _ => .skip .invalidOpcode

/-- `Decode` on a token (30_encoding.md R90): any length other than 4 is `InvalidInstructionLength` (R91). -/
def decodeToken (t : Token) : Decoded :=
  match t with
  | [c1, c2, c3, c4] => decodeChars c1 c2 c3 c4
  | _ => .skip .invalidInstructionLength

/-- The binary form of `Decode`: the four digits of a 16-bit word (30_encoding.md R81, R82, R93). -/
def decodeWord (w : Word) : Decoded :=
  decodeDigits (w.extractLsb' 12 4) (w.extractLsb' 8 4) (w.extractLsb' 4 4) (w.extractLsb' 0 4)

/-! ### The text form of a byte and of a word -/

/-- The uppercase hex character of a digit (00_scope.md R8). -/
def hexChar (v : Nibble) : Byte :=
  if v.toNat ≤ 9 then BitVec.ofNat 8 (0x30 + v.toNat) else BitVec.ofNat 8 (0x41 + (v.toNat - 10))

/-- `toHex`: two uppercase hex digits, zero-padded (30_encoding.md R101). -/
def byteToHex (b : Byte) : List Byte := [hexChar (b.extractLsb' 4 4), hexChar (b.extractLsb' 0 4)]

/-- What `fromHex` answers (30_encoding.md R94, R101). -/
inductive HexByte where
  | ok (b : Byte)
  /-- Not two valid hex digits: `InvalidEncoding`. -/
  | invalidEncoding
  /-- A lowercase digit: the source does not say whether it is taken (30_encoding.md R87, R96). -/
  | lowercase
  deriving DecidableEq, Repr

/-- `fromHex`: the byte of two uppercase hex digits (30_encoding.md R94, R101). -/
def byteFromHex (s : List Byte) : HexByte :=
  match s with
  | [c1, c2] =>
    match classify c1, classify c2 with
    | .uhex h, .uhex l => .ok (h ++ l)
    | k1, k2 => if k1 = .other ∨ k2 = .other then .invalidEncoding else .lowercase
  | _ => .invalidEncoding

/-- The text token of a word: its four hex digits, the most significant first (30_encoding.md R81). -/
def wordToToken (w : Word) : Token :=
  byteToHex (w.extractLsb' 8 8) ++ byteToHex (w.extractLsb' 0 8)

/-- `Decode` of an opcode-table instruction of `nbits` bits whose value is `w`, bit 0 the least significant
(30_encoding.md R81): the word is laid out as the text token the loader would be given. An instruction has 16 bits (R80),
so a longer one is a token of another length (R91). -/
def decodeTable (nbits w : Nat) : Decoded :=
  if nbits ≤ 16 then decodeToken (wordToToken (BitVec.ofNat 16 (w % 2 ^ nbits)))
  else .skip .invalidInstructionLength

/-- The instruction that `decodeTable` reads, none where it skips or refuses. -/
def decodeTableWord (nbits w : Nat) : Option Instr :=
  match decodeTable nbits w with
  | .ok i _ => some i
  | _ => none

/-! ### The encoder -/

/-- A register index as a hex digit (30_encoding.md R82). -/
def regDigit (r : Reg) : Nibble := BitVec.ofFin r

/-- The word of an instruction, from the encodings of 30_encoding.md R84 and R88. Don't-care digits are 0 (R98; log
entry 13). The target of JEQ is written in two decimal digits (R85). -/
def encode : Instr → Word
  | .loadMem r a => 0x1#4 ++ regDigit r ++ a
  | .loadImm r v => 0x2#4 ++ regDigit r ++ v
  | .store r a => 0x3#4 ++ regDigit r ++ a
  | .copy d => 0x4#4 ++ 0x0#4 ++ 0x0#4 ++ regDigit d
  | .addInt d s t => 0x5#4 ++ regDigit d ++ regDigit s ++ regDigit t
  | .addFloat d s t => 0x6#4 ++ regDigit d ++ regDigit s ++ regDigit t
  | .jumpEq r t => 0xB#4 ++ regDigit r ++ BitVec.ofNat 4 (t.val / 10) ++ BitVec.ofNat 4 (t.val % 10)
  | .halt => 0xC000#16

/-- The text token of an instruction (30_encoding.md R81). -/
def encodeToken (i : Instr) : Token := wordToToken (encode i)

/-- The two bytes of a word's memory image, `W[15:8]` and `W[7:0]` (30_encoding.md R81). -/
def wordImage (w : Word) : Byte × Byte := (w.extractLsb' 8 8, w.extractLsb' 0 8)

end Sys2Proof
end

