-- ==== Sys2Proof/Machine/State.lean ====
section
/-! DEFINITION. The state of the machine (10_state.md) and its value at construction (R38). Plain data throughout. -/
namespace Sys2Proof.Machine

/-- The run status (10_state.md R29). -/
inductive Status where
  | running
  | halted
  deriving DecidableEq, Repr

/-- The content of data memory cell 0 (10_state.md R33). A `text` is never empty: `Cell0.wf`. -/
inductive Cell0 where
  | byte (b : Byte)
  | text (s : List Ascii)
  deriving DecidableEq, Repr

/-- A text in cell 0 is a non-empty string (10_state.md R33). -/
def Cell0.wf : Cell0 → Bool
  | .byte _ => true
  | .text s => !s.isEmpty

/-- Cells 1..255 of the data memory (10_state.md R32) as (address, byte) pairs in the canonical form `Memory.wf`. -/
abbrev Memory := List Host.Cell

/-- What an unlisted cell reads as: 0x00, the value of every cell at construction (10_state.md R32, R38). -/
def Memory.unlisted : Byte := 0x00#8

/-- Addresses rise strictly, from above `lo`, up to 255, and no listed byte equals what an unlisted cell reads as. -/
def Memory.wfFrom (lo : Nat) : Memory → Bool
  | [] => true
  | (a, v) :: m => decide (lo < a) && decide (a ≤ 255) && v != Memory.unlisted && Memory.wfFrom a m

/-- The canonical form: strictly rising addresses within 1..255, no entry an unlisted cell could stand for. -/
def Memory.wf (m : Memory) : Bool := Memory.wfFrom 0 m

/-- A trace event, one per executed instruction (44_fetch_execute.md R208). -/
inductive TraceEvent where
  | regWritten (r : Reg) (v : Byte)
  | memWritten (a : Byte) (v : Byte)
  | accAppended (v : Byte) (ok : Bool)
  | jumpTaken (t : Target)
  | jumpNotTaken (t : Target)
  | halted
  deriving DecidableEq, Repr

/-- A diagnostic with the information 60_exceptions.md R262 has recorded. -/
inductive Diagnostic where
  /-- Raised by LOAD: the token's index, the token and the kind. -/
  | atToken (index : Nat) (token : Token) (kind : DiagKind)
  /-- `OutOfAsciiRange`, raised by a StoreToMemory: the slot and the value. -/
  | outOfAsciiRange (slot : Int) (value : Byte)
  deriving DecidableEq, Repr

/-- The kind of a diagnostic (60_exceptions.md R262). -/
def Diagnostic.kind : Diagnostic → DiagKind
  | .atToken _ _ k => k
  | .outOfAsciiRange _ _ => .outOfAsciiRange

/-- The two output channels (10_state.md R37). They are no state of the block: the machine never reads them back. They
stand beside its state so that a step shows what it emits (DESIGN CHOICE, log entry 10). -/
structure Outputs where
  /-- The trace: every event emitted so far, the oldest first. -/
  trace : List TraceEvent
  /-- The diagnostics of the current LOAD or RUN, the oldest first (60_exceptions.md R261). -/
  diags : List Diagnostic
  deriving DecidableEq, Repr

/-- The block's state: the record of 10_state.md R20, and the output channels of R37. -/
structure State where
  /-- The register file x0..x15 (R21). -/
  regs : Vector Byte 16
  /-- Data memory cells 1..255 (R32). -/
  mem : Memory
  /-- Data memory cell 0 (R33). -/
  cell0 : Cell0
  /-- The program store (R34). -/
  prog : List Instr
  /-- The program counter, in slots (R26). -/
  pc : Int
  /-- The run status (R29). -/
  status : Status
  /-- The load cursor (R35). -/
  cursor : Int
  /-- The model-only refusal mark (R36). -/
  refused : Option RefuseReason
  /-- The output channels, no state of the block (R37). -/
  out : Outputs
  deriving DecidableEq, Repr

/-- Why a step stops with a fault. The machine has no traps (60_exceptions.md R260), so there is one reason. -/
inductive Fault where
  /-- Raised by `step` when the status is Halted: "A step exists only when `status = Running`" (44_fetch_execute.md
  R201). Safe: only the host's RUN leaves Halted (60_exceptions.md R275). Log entry 9. -/
  | notRunning
  deriving DecidableEq, Repr

/-- Why a step gives no meaning. -/
inductive Refusal where
  /-- An arm of `exec` whose instruction has no meaning yet. Raised by none: every instruction has its meaning. Safe. -/
  | notModelled (mnemonic : String)
  /-- Raised by `step` when the refusal mark is set (44_fetch_execute.md R201, 45_loader_and_host.md R229). Safe. -/
  | machineRefused (reason : RefuseReason)
  /-- Raised by StoreToMemory to cell 0 in a machine whose accumulator is bounded, when the append would pass the bound
  (20_memory.md R57). Safe. Raised by no step of the model's own machine, whose `Config.accCapacity` is `none`; `stepWithin`
  raises it. -/
  | accumulatorFull
  deriving DecidableEq, Repr

/-- The reason that the refusal mark records for a refusal (10_state.md R36, 45_loader_and_host.md R229). -/
def Refusal.reason : Refusal → Option RefuseReason
  | .notModelled _ => none
  | .machineRefused r => some r
  | .accumulatorFull => some .accCapacityExceeded

/-- The state at construction with the register values `regInit` (10_state.md R38; `regInit` is `REG_INIT`, D10). -/
def State.construct (regInit : Vector Byte 16) : State where
  regs := regInit
  mem := []
  cell0 := .byte 0x00#8
  prog := []
  pc := 0
  status := .halted
  cursor := 0
  refused := none
  out := { trace := [], diags := [] }

/-- The machine right after reset: construction is the only reset (70_reset_and_hazards.md R300). DESIGN CHOICE (log
entry 1, unsafe): every register holds 0x00, the default of 92_eei_decisions.md D10; the spec leaves `REG_INIT` open. -/
def State.reset : State := State.construct (Vector.replicate 16 0x00#8)

end Sys2Proof.Machine
end

