-- ==== Sys2Proof/Machine/Ops.lean ====
section
/-! DEFINITION. The named operations over registers, memory, the outputs and the program counter. Each is the one home
of a primitive of 00_scope.md R9.

The machine has no exceptions (60_exceptions.md R260, R267, R268). What stands in their place is `raise`, the one
shared operation that reports a diagnostic (R261): it transfers no control and saves nothing, so there is no return. -/
namespace Sys2Proof.Machine

/-! ### Registers (10_state.md R21) -/

/-- `x[r]`. -/
def State.reg (s : State) (r : Reg) : Byte := s.regs[r]

/-- `x[r] <- v`. -/
def State.setReg (s : State) (r : Reg) (v : Byte) : State := { s with regs := s.regs.set r v }

/-! ### Data memory -/

/-- The byte of cell `a`; an unlisted cell reads as `Memory.unlisted`. -/
def Memory.read (m : Memory) (a : Nat) : Byte :=
  match m with
  | [] => Memory.unlisted
  | (b, v) :: rest => if b = a then v else Memory.read rest a

/-- The memory with no entry for cell `a`. -/
def Memory.erase (m : Memory) (a : Nat) : Memory := m.filter fun c => c.1 != a

/-- The memory with the entry `(a, v)` at its place in rising order, where `a` has no entry. -/
def Memory.insert (m : Memory) (a : Nat) (v : Byte) : Memory :=
  match m with
  | [] => [(a, v)]
  | (b, w) :: rest => if a < b then (a, v) :: (b, w) :: rest else (b, w) :: Memory.insert rest a v

/-- Cell `a` holds `v`; the value an unlisted cell reads as leaves no entry, so the canonical form stays. -/
def Memory.write (m : Memory) (a : Nat) (v : Byte) : Memory :=
  if v = Memory.unlisted then Memory.erase m a else Memory.insert (Memory.erase m a) a v

/-- What cell 0 reads as: its byte, or `READ_TEXT` of its text (20_memory.md R52; log entry 4). -/
def Cell0.read : Cell0 → Byte
  | .byte b => b
  | .text s => Config.readText s

/-- `MemRead(a, 1)` (20_memory.md R52): any integer address; outside 0..255 it gives 0x00. -/
def memRead (s : State) (a : Int) : Byte :=
  if a < 0 ∨ 255 < a then 0x00#8
  else if a = 0 then Cell0.read s.cell0
  else Memory.read s.mem a.toNat

/-- `MemWrite(a, 1, v)` (20_memory.md R53): any integer address; outside 0..255 it does nothing, and at 0 it sets cell 0
to the byte, whatever it held (92_eei_decisions.md D15; log entry 15). -/
def memWrite (s : State) (a : Int) (v : Byte) : State :=
  if a < 0 ∨ 255 < a then s
  else if a = 0 then { s with cell0 := .byte v }
  else { s with mem := Memory.write s.mem a.toNat v }

/-! ### The cell-0 accumulator (20_memory.md R55 to R57) -/

/-- What an append finds already in cell 0 (20_memory.md R56): its text, the empty string for `Byte(0x00)`, and
`ACC_PREFIX` of any other byte (log entry 3). -/
def Cell0.heldText : Cell0 → List Ascii
  | .text s => s
  | .byte b => if b = 0x00#8 then [] else Config.accPrefix b

/-- A list of `n` items is within the capacity `cap` (20_memory.md R57, 10_state.md R34); `none` is unbounded. -/
def withinCapacity (cap : Option Nat) (n : Nat) : Bool :=
  match cap with
  | none => true
  | some c => decide (n ≤ c)

/-- The three ways an append can end. -/
inductive Appended where
  /-- The new content of cell 0. -/
  | stored (c : Cell0)
  /-- The code is above 127: cell 0 keeps its content (20_memory.md R56). -/
  | outOfRange
  /-- The append would pass the capacity (20_memory.md R57). -/
  | full
  deriving DecidableEq, Repr

/-- `AccAppend(b)` on a cell-0 content, with the accumulator's capacity (20_memory.md R56, R57). -/
def accAppend (cap : Option Nat) (b : Byte) (c : Cell0) : Appended :=
  if 127 < b.toNat then .outOfRange
  else
    let text := Cell0.heldText c ++ [b.setWidth 7]
    if withinCapacity cap text.length then .stored (.text text) else .full

/-! ### The outputs (10_state.md R37) -/

/-- `raise`: the diagnostic joins those of the current LOAD or RUN and nothing else happens (60_exceptions.md R261). -/
def State.raise (s : State) (d : Diagnostic) : State :=
  { s with out := { s.out with diags := s.out.diags ++ [d] } }

/-- `emit Trace(e)`: the event joins the trace (44_fetch_execute.md R208). -/
def State.emit (s : State) (e : TraceEvent) : State :=
  { s with out := { s.out with trace := s.out.trace ++ [e] } }

/-! ### Control (44_fetch_execute.md) -/

/-- What an executed instruction does to the pc: `Continue`, `JumpTo(t)`, `Halt` (44_fetch_execute.md R203). -/
inductive ControlEffect where
  | proceed
  | jumpTo (t : Target)
  | halt
  deriving DecidableEq, Repr

/-- `Advance(pc, eff)` (44_fetch_execute.md R203). A taken jump goes to its target exactly (D12; log entry 16). -/
def advance (pc : Int) : ControlEffect → Int
  | .proceed => pc + 1
  | .jumpTo t => t.val
  | .halt => -1

/-- The end of every executed instruction: its trace event (R208), the next pc (R203), and Halted if that is negative
(R204). -/
def State.complete (s : State) (eff : ControlEffect) (e : TraceEvent) : State :=
  { s.emit e with
    pc := advance s.pc eff
    status := if advance s.pc eff < 0 then .halted else s.status }

/-- The fetch: the instruction of slot `pc`, none where the pc is out of bounds (44_fetch_execute.md R201, R202). -/
def State.fetch (s : State) : Option Instr :=
  if s.pc < 0 then none else s.prog[s.pc.toNat]?

/-- What an out-of-bounds fetch leaves: the status Halted and all else as it was (44_fetch_execute.md R202). -/
def State.endOfProgram (s : State) : State := { s with status := .halted }

end Sys2Proof.Machine
end

