-- ==== Sys2Proof/Machine/Arithmetic.lean ====
section
/-! DEFINITION. The arithmetic instructions (42_arithmetic.md). -/
namespace Sys2Proof.Machine

/-- Add (42_arithmetic.md R160): the exact sum of the signed readings, modulo 256. -/
def execAddInt (d a b : Reg) (s : State) : Host.Outcome State Fault Refusal :=
  let v := trunc8 (sext8 (s.reg a) + sext8 (s.reg b))
  .next ((s.setReg d v).complete .proceed (.regWritten d v))

/-- AddFloat (42_arithmetic.md R161), in the integer form the rule gives (log entry 14). -/
def execAddFloat (d a b : Reg) (s : State) : Host.Outcome State Fault Refusal :=
  let v := f8EncodeInt (f8Scaled (s.reg a) + f8Scaled (s.reg b))
  .next ((s.setReg d v).complete .proceed (.regWritten d v))

end Sys2Proof.Machine
end

