-- ==== Sys2Proof/Machine/Flags.lean ====
section
/-! DEFINITION. Conditions. The machine has no status flags and no condition codes (10_state.md R30): Add and AddFloat
record nothing (42_arithmetic.md R162, 40_float_codec.md R127). Its one condition is register equality. -/
namespace Sys2Proof.Machine

/-- The condition of JumpIfEqual: `x[r] = x[0]`, 8-bit equality (43_control_transfer.md R180). -/
def equalsComparand (s : State) (r : Reg) : Bool := s.reg r == s.reg comparand

end Sys2Proof.Machine
end

