-- ==== Sys2Proof/Machine/ControlTransfer.lean ====
section
/-! DEFINITION. The control-transfer instructions (43_control_transfer.md). -/
namespace Sys2Proof.Machine

/-- JumpIfEqual (43_control_transfer.md R180). -/
def execJumpEq (r : Reg) (t : Target) (s : State) : Host.Outcome State Fault Refusal :=
  if equalsComparand s r then .next (s.complete (.jumpTo t) (.jumpTaken t))
  else .next (s.complete .proceed (.jumpNotTaken t))

/-- Halt (43_control_transfer.md R181). -/
def execHalt (s : State) : Host.Outcome State Fault Refusal :=
  .next (s.complete .halt .halted)

end Sys2Proof.Machine
end

