-- ==== Sys2Proof/Machine/DataTransfer.lean ====
section
/-! DEFINITION. The data-transfer instructions (41_data_transfer.md). -/
namespace Sys2Proof.Machine

/-- LoadFromMemory (41_data_transfer.md R140). -/
def execLoadMem (r : Reg) (a : Byte) (s : State) : Host.Outcome State Fault Refusal :=
  let v := memRead s (directAddress a)
  .next ((s.setReg r v).complete .proceed (.regWritten r v))

/-- LoadImmediate (41_data_transfer.md R141). -/
def execLoadImm (r : Reg) (v : Byte) (s : State) : Host.Outcome State Fault Refusal :=
  .next ((s.setReg r v).complete .proceed (.regWritten r v))

/-- StoreToMemory (41_data_transfer.md R142) in a machine whose accumulator has the capacity `cap`. Address field 00
appends to cell 0; a value above 127 raises `OutOfAsciiRange` with the slot and the value, and execution goes on
(60_exceptions.md R262, R263). An append past the capacity is refused (20_memory.md R57). -/
def execStoreWithin (cap : Option Nat) (r : Reg) (a : Byte) (s : State) : Host.Outcome State Fault Refusal :=
  let v := s.reg r
  if isAccumulatorForm a then
    match accAppend cap v s.cell0 with
    | .stored c => .next ({ s with cell0 := c }.complete .proceed (.accAppended v true))
    | .outOfRange => .next ((s.raise (.outOfAsciiRange s.pc v)).complete .proceed (.accAppended v false))
    | .full => .refused .accumulatorFull
  else .next ((memWrite s (directAddress a) v).complete .proceed (.memWritten a v))

/-- StoreToMemory (41_data_transfer.md R142). -/
def execStore (r : Reg) (a : Byte) (s : State) : Host.Outcome State Fault Refusal :=
  execStoreWithin Config.accCapacity r a s

/-- CopyRegister (41_data_transfer.md R143). -/
def execCopy (d : Reg) (s : State) : Host.Outcome State Fault Refusal :=
  let v := s.reg copySource
  .next ((s.setReg d v).complete .proceed (.regWritten d v))

end Sys2Proof.Machine
end

