-- ==== Sys2Proof/Machine/Dispatch.lean ====
section
/-! DEFINITION. `exec`: one arm per constructor of `Instr` (30_encoding.md R88). -/
namespace Sys2Proof.Machine

/-- `Exec(i)` with the control effect applied (44_fetch_execute.md R201, R203, R204). -/
def exec (i : Instr) (s : State) : Host.Outcome State Fault Refusal :=
  match i with
  | .loadMem r a => Sys2Proof.Machine.execLoadMem r a s
  | .loadImm r v => Sys2Proof.Machine.execLoadImm r v s
  | .store r a => Sys2Proof.Machine.execStore r a s
  | .copy d => Sys2Proof.Machine.execCopy d s
  | .addInt d a b => Sys2Proof.Machine.execAddInt d a b s
  | .addFloat d a b => Sys2Proof.Machine.execAddFloat d a b s
  | .jumpEq r t => Sys2Proof.Machine.execJumpEq r t s
  | .halt => Sys2Proof.Machine.execHalt s

end Sys2Proof.Machine
end

