-- ==== Sys2Proof/Machine/Step.lean ====
section
/-! DEFINITION. One step of the fetch-execute loop (44_fetch_execute.md R201), and the placing of an instruction where it
is fetched next. -/
namespace Sys2Proof.Machine

/-- `Step` (44_fetch_execute.md R201) with `execute` as its `Exec`. A step exists only when the status is Running and no
refusal mark is set; outside that it answers by name (log entry 9). -/
def stepWith (execute : Instr → State → Host.Outcome State Fault Refusal) (s : State) :
    Host.Outcome State Fault Refusal :=
  match s.refused with
  | some r => .refused (.machineRefused r)
  | none =>
    match s.status with
    | .halted => .fault .notRunning
    | .running =>
      match s.fetch with
      | none => .next s.endOfProgram
      | some i => execute i s

/-- `Step` (44_fetch_execute.md R201). -/
def step (s : State) : Host.Outcome State Fault Refusal := stepWith exec s

/-- The state whose next fetch gives `i`: in slot `pc`, or in a new slot at the end of the store with the pc there when
the pc is no slot of the store; Running, with no refusal mark. -/
def State.placeNext (s : State) (i : Instr) : State :=
  if 0 ≤ s.pc ∧ s.pc.toNat < s.prog.length then
    { s with prog := s.prog.set s.pc.toNat i, status := .running, refused := none }
  else
    { s with prog := s.prog ++ [i], pc := s.prog.length, status := .running, refused := none }

/-- The state with the instruction of the table word `w` where `step` fetches next. It stands for a LOAD of that word and
a RUN (log entry 11). A word that the decoder does not read enters no program store (30_encoding.md R93), so it changes
nothing; a word it refuses sets the refusal mark, as LOAD does (45_loader_and_host.md R229). -/
def State.withFetchWord (s : State) (nbits w : Nat) : State :=
  match decodeTable nbits w with
  | .ok i _ => s.placeNext i
  | .skip _ => s
  | .refuse r => { s with refused := some r }

end Sys2Proof.Machine
end

