-- ==== Sys2Proof/Machine/Loader.lean ====
section
/-! DEFINITION. The host operation LOAD (45_loader_and_host.md, section 2). -/
namespace Sys2Proof.Machine

/-- `LoadReport` (45_loader_and_host.md R228): the skipped tokens' diagnostics in input order, the count of instructions
appended, and whether a Halt ended loading. -/
structure LoadReport where
  diags : List Diagnostic
  appended : Nat
  endedByHalt : Bool
  deriving DecidableEq, Repr

/-- The outcome of LOAD (45_loader_and_host.md R223). -/
inductive LoadOutcome where
  | loaded (report : LoadReport)
  | refused (reason : RefuseReason)
  deriving DecidableEq, Repr

/-- An admitted word is stored (45_loader_and_host.md R225, R226): its image at the cursor and the next address, the
cursor 2 further, its instruction appended to the program store. -/
def State.storeWord (s : State) (i : Instr) (img : Byte × Byte) : State :=
  let m := memWrite (memWrite s s.cursor img.1) (s.cursor + 1) img.2
  { m with cursor := s.cursor + 2, prog := s.prog ++ [i] }

/-- The end of a LOAD that is not refused: `pc <- 0` and the report (45_loader_and_host.md R227, R228). -/
def State.endLoad (s : State) (appended : Nat) (endedByHalt : Bool) : LoadOutcome × State :=
  (.loaded { diags := s.out.diags, appended := appended, endedByHalt := endedByHalt }, { s with pc := 0 })

/-- A refusal: the mark is set (45_loader_and_host.md R229, 10_state.md R36). -/
def State.refuseLoad (s : State) (r : RefuseReason) : LoadOutcome × State :=
  (.refused r, { s with refused := some r })

/-- The loop of LOAD over its tokens (45_loader_and_host.md R223): `k` is the index of the next token, `n` the count of
instructions appended so far, `cap` the capacity of the program store (R229). -/
def loadTokens (cap : Option Nat) (k n : Nat) (tokens : List Token) (s : State) : LoadOutcome × State :=
  match tokens with
  | [] => s.endLoad n false
  | tok :: rest =>
    match decodeToken tok with
    | .skip kind => loadTokens cap (k + 1) n rest (s.raise (.atToken k tok kind))
    | .refuse r => s.refuseLoad r
    | .ok i img =>
      if withinCapacity cap (s.prog.length + 1) then
        if i = .halt then (s.storeWord i img).endLoad (n + 1) true
        else loadTokens cap (k + 1) (n + 1) rest (s.storeWord i img)
      else s.refuseLoad .progCapacityExceeded

/-- The state in which LOAD meets its first token: the cursor at `start`, no diagnostics yet (R222, R223). -/
def State.beginLoad (s : State) (start : Int) : State :=
  { s with cursor := start, out := { s.out with diags := [] } }

/-- LOAD in a machine whose program store has the capacity `cap` (45_loader_and_host.md R223). -/
def loadWithin (cap : Option Nat) (tokens : List Token) (start : Int) (s : State) : LoadOutcome × State :=
  match s.refused with
  | some r => (.refused r, s)
  | none => loadTokens cap 0 0 tokens (s.beginLoad start)

/-- `LOAD(tokens, start)` (45_loader_and_host.md R221, R223). -/
def load (tokens : List Token) (start : Int) (s : State) : LoadOutcome × State :=
  loadWithin Config.progCapacity tokens start s

/-- LOAD of a text, split into its tokens (30_encoding.md R86, 45_loader_and_host.md R221). -/
def loadText (text : List Byte) (start : Int) (s : State) : LoadOutcome × State :=
  load (splitTokens text) start s

end Sys2Proof.Machine
end

