-- ==== Sys2Proof/Machine/HostInterface.lean ====
section
/-! DEFINITION. The host operations RUN and SNAPSHOT (45_loader_and_host.md, sections 3 and 4). -/
namespace Sys2Proof.Machine

/-- Why a run ended (44_fetch_execute.md R209). -/
inductive EndReason where
  | haltInstruction
  | endOfProgram
  deriving DecidableEq, Repr

/-- `RunReport` (45_loader_and_host.md R232). -/
structure RunReport where
  reason : EndReason
  pc : Int
  diags : List Diagnostic
  deriving DecidableEq, Repr

/-- The outcome of RUN (45_loader_and_host.md R231). -/
inductive RunOutcome where
  | ran (report : RunReport)
  | refused (reason : Refusal)
  deriving DecidableEq, Repr

/-- Why the run ends when the step at `s` halts it: an out-of-bounds fetch, or else a Halt (44_fetch_execute.md R209). -/
def State.endReason (s : State) : EndReason :=
  match s.fetch with
  | none => .endOfProgram
  | some _ => .haltInstruction

/-- The state a refused RUN leaves: the mark is set where the refusal has a reason the mark records (R229). -/
def State.markRefused (s : State) (r : Refusal) : State :=
  match r.reason with
  | some q => { s with refused := some q }
  | none => s

/-- The loop of RUN (45_loader_and_host.md R231) over the step `next`, at most `fuel` steps. `none` is no final state: the run goes on, as a
run may for ever (44_fetch_execute.md R207; log entry 12). A step in this loop never faults, since it is taken only while
the status is Running. -/
def runLoopWith (next : State → Host.Outcome State Fault Refusal) (fuel : Nat) (s : State) :
    Option (RunOutcome × State) :=
  match fuel with
  | 0 => none
  | k + 1 =>
    match next s with
    | .next t =>
      match t.status with
      | .running => runLoopWith next k t
      | .halted => some (.ran { reason := s.endReason, pc := t.pc, diags := t.out.diags }, t)
    | .refused r => some (.refused r, s.markRefused r)
    | .fault _ => none

/-- The loop of RUN in the model's own machine (45_loader_and_host.md R231). -/
def runLoop (fuel : Nat) (s : State) : Option (RunOutcome × State) := runLoopWith step fuel s

/-- The state in which RUN takes its first step (45_loader_and_host.md R231): `resetsPc` is `RUN_RESETS_PC`. -/
def State.beginRun (s : State) (resetsPc : Bool) : State :=
  { s with
    pc := if resetsPc then 0 else s.pc
    status := .running
    out := { s.out with diags := [] } }

/-- RUN over the step `next` in a machine with the given `RUN_RESETS_PC`, at most `fuel` steps (45_loader_and_host.md
R231). -/
def runOver (next : State → Host.Outcome State Fault Refusal) (resetsPc : Bool) (fuel : Nat) (s : State) :
    Option (RunOutcome × State) :=
  match s.refused with
  | some r => some (.refused (.machineRefused r), s)
  | none => runLoopWith next fuel (s.beginRun resetsPc)

/-- RUN in a machine with the given `RUN_RESETS_PC`, at most `fuel` steps (45_loader_and_host.md R231). -/
def runWith (resetsPc : Bool) (fuel : Nat) (s : State) : Option (RunOutcome × State) := runOver step resetsPc fuel s

/-- `RUN()` (45_loader_and_host.md R231), at most `fuel` steps, for whatever `RUN_RESETS_PC` is (log entry 2). -/
def run (fuel : Nat) (s : State) : Option (RunOutcome × State) := runWith Config.runResetsPc fuel s

/-- What SNAPSHOT returns (45_loader_and_host.md R234). The memory is cells 1..255 and cell 0 as stored. -/
structure Snapshot where
  registers : Vector Byte 16
  mem : Memory
  cell0 : Cell0
  programCounter : Int
  deriving DecidableEq, Repr

/-- `SNAPSHOT()` (45_loader_and_host.md R234): it only reads, so it has no next state. -/
def snapshot (s : State) : Snapshot where
  registers := s.regs
  mem := s.mem
  cell0 := s.cell0
  programCounter := s.pc

end Sys2Proof.Machine
end

