-- ==== Sys2Proof/Machine/Bounded.lean ====
section
/-! DEFINITION. The machine whose accumulator has a capacity (20_memory.md R57, 92_eei_decisions.md D18; log entry 5). The
capacity changes StoreToMemory and, through it, the step and RUN. With no capacity it is the model's own machine. -/
namespace Sys2Proof.Machine

/-- `Exec(i)` with the accumulator's capacity `cap` (20_memory.md R57). -/
def execWithin (cap : Option Nat) (i : Instr) (s : State) : Host.Outcome State Fault Refusal :=
  match i with
  | .store r a => execStoreWithin cap r a s
  | .loadMem r a => exec (.loadMem r a) s
  | .loadImm r v => exec (.loadImm r v) s
  | .copy d => exec (.copy d) s
  | .addInt d a b => exec (.addInt d a b) s
  | .addFloat d a b => exec (.addFloat d a b) s
  | .jumpEq r t => exec (.jumpEq r t) s
  | .halt => exec .halt s

/-- `Step` with the accumulator's capacity `cap` (44_fetch_execute.md R201). -/
def stepWithin (cap : Option Nat) (s : State) : Host.Outcome State Fault Refusal := stepWith (execWithin cap) s

/-- RUN with the accumulator's capacity `cap` (45_loader_and_host.md R229, R231). -/
def runWithin (cap : Option Nat) (resetsPc : Bool) (fuel : Nat) (s : State) : Option (RunOutcome × State) :=
  runOver (stepWithin cap) resetsPc fuel s

end Sys2Proof.Machine
end

