-- ==== Sys2Proof/Safety.lean ====
section
/-! DEFINITION. The terms in which claims speak of a good state, a good run and an instruction's footprint. -/
namespace Sys2Proof

/-- The register an instruction writes, if any (10_state.md R24). -/
def Instr.dest : Instr → Option Reg
  | .loadMem r _ => some r
  | .loadImm r _ => some r
  | .store _ _ => none
  | .copy d => some d
  | .addInt d _ _ => some d
  | .addFloat d _ _ => some d
  | .jumpEq _ _ => none
  | .halt => none

/-- The registers an instruction reads (10_state.md R24). -/
def Instr.reads : Instr → List Reg
  | .loadMem _ _ => []
  | .loadImm _ _ => []
  | .store r _ => [r]
  | .copy _ => [10]
  | .addInt _ s t => [s, t]
  | .addFloat _ s t => [s, t]
  | .jumpEq r _ => [r, 0]
  | .halt => []

end Sys2Proof

namespace Sys2Proof.Machine

/-- The pc is -1 or a slot index up to the larger of the program's length and 99 (10_state.md R27). -/
def State.pcInRange (s : State) : Prop :=
  s.pc = -1 ∨ (0 ≤ s.pc ∧ s.pc ≤ max (s.prog.length : Int) 99)

/-- The invariant of the machine: data memory in canonical form (R32), a text in cell 0 not empty (R33), the pc in
range (R27). -/
structure State.Inv (s : State) : Prop where
  mem : Memory.wf s.mem = true
  cell0 : s.cell0.wf = true
  pc : s.pcInRange

/-- A step exists: the status is Running and no refusal mark is set (44_fetch_execute.md R201). -/
structure State.Ready (s : State) : Prop where
  running : s.status = .running
  unrefused : s.refused = none

/-- The step from `s` executes `i`: a step exists and the fetch gives `i`. -/
structure State.Executes (s : State) (i : Instr) : Prop where
  ready : s.Ready
  fetch : s.fetch = some i

/-- The same block state with other contents in the output channels (10_state.md R37). -/
def State.withOut (s : State) (o : Outputs) : State := { s with out := o }

/-- The instruction of an admitted token (30_encoding.md R90). -/
def tokenInstr (tok : Token) : Option Instr :=
  match decodeToken tok with
  | .ok i _ => some i
  | .skip _ => none
  | .refuse _ => none

/-- The diagnostic of a skipped token, with its index (45_loader_and_host.md R224). -/
def tokenDiagnostic (tok : Token) (index : Nat) : Option Diagnostic :=
  match decodeToken tok with
  | .ok _ _ => none
  | .skip kind => some (.atToken index tok kind)
  | .refuse _ => none

/-- `k` steps of `next`, each to a next state. -/
def stepsToWith (next : State → Host.Outcome State Fault Refusal) (k : Nat) (s t : State) : Prop :=
  match k with
  | 0 => s = t
  | k + 1 => ∃ u, next s = .next u ∧ stepsToWith next k u t

/-- `k` steps, each to a next state. -/
def stepsTo (k : Nat) (s t : State) : Prop := stepsToWith step k s t

end Sys2Proof.Machine
end

