-- ==== Sys2Proof/Certificates/Slice0/Obligations.lean ====
section
/-! DEFINITION. The statements for the provers. A result is written out from the spec's own expressions where the model
computes it by a function of its own. A docstring names the rule a statement formalises; where a clause rests on a
decision or an inference that the spec marks as its own, or on a choice of the model, the docstring says so. -/

open Sys2Proof Sys2Proof.Machine

/-! ### Construction and the invariant -/

/-- 10_state.md section 7, the table of values at construction, for EVERY `REG_INIT`. The status and the cursor are the
spec's decisions D25 and D24. -/
def Obligations.ConstructionValues : Prop :=
  ∀ regInit : Vector Byte 16,
    (∀ r : Reg, (State.construct regInit).reg r = regInit.get r) ∧
    (∀ a : Int, memRead (State.construct regInit) a = 0x00#8) ∧
    (State.construct regInit).cell0 = .byte 0x00#8 ∧
    (State.construct regInit).prog = [] ∧
    (State.construct regInit).pc = 0 ∧
    (State.construct regInit).status = .halted ∧
    (State.construct regInit).cursor = 0 ∧
    (State.construct regInit).refused = none

/-- The invariant of Safety.lean holds at construction, whatever the registers hold, and so after reset. -/
def Obligations.InvariantAtReset : Prop :=
  (∀ regInit : Vector Byte 16, (State.construct regInit).Inv) ∧ State.reset.Inv

/-- Every step keeps the invariant: data memory in canonical form (the model's representation of 10_state.md section 5),
a text in cell 0 not empty, and the pc in {-1} ∪ [0, max(length(prog), 99)], the spec's own inference in 10_state.md
section 3. -/
def Obligations.StepKeepsInvariant : Prop :=
  ∀ s t : State, s.Inv → step s = .next t → t.Inv

/-- LOAD and RUN keep the same invariant, whatever their outcome and whatever `RUN_RESETS_PC` is. That the state after a
refusal keeps its other fields, and with them the invariant, is the model's choice (log entry 22): the spec claims nothing of
that state. -/
def Obligations.HostOperationsKeepInvariant : Prop :=
  (∀ (tokens : List Token) (start : Int) (s : State), s.Inv → (load tokens start s).2.Inv) ∧
  (∀ (resetsPc : Bool) (fuel : Nat) (s t : State) (o : RunOutcome),
    s.Inv → runWith resetsPc fuel s = some (o, t) → t.Inv)

/-! ### Encoding -/

/-- Decode and encode agree for every instruction with every operand (30_encoding.md section 5). -/
def Obligations.DecodeOfEncode : Prop :=
  ∀ i : Instr, decodeToken (encodeToken i) = .ok i (wordImage (encode i))

/-- The binary form loses nothing: the token of a word and the word itself decode alike (the spec's own inference in
30_encoding.md section 1). -/
def Obligations.TokenAndWordDecodeAlike : Prop :=
  ∀ w : Word, decodeToken (wordToToken w) = decodeWord w

/-- The admitted tokens are exactly the texts of the words that WellFormed.lean admits (30_encoding.md sections 1, 4, 5;
the refusals among the others are the spec's decisions D6, D7 and D8, log entry 19). -/
def Obligations.AdmittedTokensAreWellFormedWords : Prop :=
  ∀ tok : Token, (∃ i img, decodeToken tok = .ok i img) ↔ ∃ w : Word, WellFormed.word w = true ∧ tok = wordToToken w

/-- The image of an admitted token is the token's own text, two characters a byte, the first pair first. -/
def Obligations.ImageIsTheTokenText : Prop :=
  ∀ (tok : Token) (i : Instr) (img : Byte × Byte),
    decodeToken tok = .ok i img → tok = byteToHex img.1 ++ byteToHex img.2

/-- How each opcode assembles its operands (30_encoding.md section 2). The target of opcode B is read in decimal. That an
opcode-4 word with another register digit is not decoded is the spec's decision D8. -/
def Obligations.OperandAssembly : Prop :=
  ∀ r x y : Nibble,
    decodeWord (0x1#4 ++ r ++ x ++ y) = .ok (.loadMem r.toFin (x ++ y)) (0x1#4 ++ r, x ++ y) ∧
    decodeWord (0x2#4 ++ r ++ x ++ y) = .ok (.loadImm r.toFin (x ++ y)) (0x2#4 ++ r, x ++ y) ∧
    decodeWord (0x3#4 ++ r ++ x ++ y) = .ok (.store r.toFin (x ++ y)) (0x3#4 ++ r, x ++ y) ∧
    decodeWord (0x4#4 ++ 0x0#4 ++ x ++ y) = .ok (.copy y.toFin) (0x4#4 ++ 0x0#4, x ++ y) ∧
    (r ≠ 0x0#4 → ∀ i img, decodeWord (0x4#4 ++ r ++ x ++ y) ≠ .ok i img) ∧
    decodeWord (0x5#4 ++ r ++ x ++ y) = .ok (.addInt r.toFin x.toFin y.toFin) (0x5#4 ++ r, x ++ y) ∧
    decodeWord (0x6#4 ++ r ++ x ++ y) = .ok (.addFloat r.toFin x.toFin y.toFin) (0x6#4 ++ r, x ++ y) ∧
    (∀ t : Target, x.toNat ≤ 9 → y.toNat ≤ 9 → t.val = 10 * x.toNat + y.toNat →
      decodeWord (0xB#4 ++ r ++ x ++ y) = .ok (.jumpEq r.toFin t) (0xB#4 ++ r, x ++ y)) ∧
    decodeWord (0xC#4 ++ r ++ x ++ y) = .ok .halt (0xC#4 ++ r, x ++ y)

/-- R91: a token of another length than four is skipped with `InvalidInstructionLength`, and loading goes on with the
next token, the memory, the cursor and the program store as they were. -/
def Obligations.WrongLengthIsSkipped : Prop :=
  ∀ (tok : Token) (cap : Option Nat) (k n : Nat) (rest : List Token) (s : State), tok.length ≠ 4 →
    decodeToken tok = .skip .invalidInstructionLength ∧
    loadTokens cap k n (tok :: rest) s =
      loadTokens cap (k + 1) n rest
        { s with out := { s.out with diags := s.out.diags ++ [.atToken k tok .invalidInstructionLength] } }

/-- A token of four characters whose first is none of `1 2 3 4 5 6 B C` is skipped with `InvalidOpcode`, and never aborts
the load (30_encoding.md R92). That this fault wins over the token's other faults is the spec's decision D3, and that a
skipped token leaves the memory, the cursor and the program store is its decision D4 (log entry 18). -/
def Obligations.UnlistedOpcodeIsSkipped : Prop :=
  ∀ (c1 c2 c3 c4 : Byte) (cap : Option Nat) (k n : Nat) (rest : List Token) (s : State),
    c1 ∉ [0x31#8, 0x32#8, 0x33#8, 0x34#8, 0x35#8, 0x36#8, 0x42#8, 0x43#8] →
    decodeToken [c1, c2, c3, c4] = .skip .invalidOpcode ∧
    loadTokens cap k n ([c1, c2, c3, c4] :: rest) s =
      loadTokens cap (k + 1) n rest
        { s with out := { s.out with diags := s.out.diags ++ [.atToken k [c1, c2, c3, c4] .invalidOpcode] } }

/-- What becomes of every other token of four characters with a listed opcode that is not admitted: a character that is
no hex digit skips it, whatever else is wrong; a lowercase digit, a non-decimal target or a register digit of opcode 4
refuses it. These are the spec's decisions D3, D5, D6, D7 and D8 (30_encoding.md sections 3 and 5). -/
def Obligations.MalformedTokensByTheirFirstFault : Prop :=
  ∀ (op : Nibble) (c2 c3 c4 : Byte), opcodeKnown op = true →
    (.other ∈ [classify c2, classify c3, classify c4] →
      decodeToken [hexChar op, c2, c3, c4] = .skip .invalidEncoding) ∧
    (.other ∉ [classify c2, classify c3, classify c4] → .lhex ∈ [classify c2, classify c3, classify c4] →
      decodeToken [hexChar op, c2, c3, c4] = .refuse .lowercaseHexDigit) ∧
    (∀ r x y : Nibble, classify c2 = .uhex r → classify c3 = .uhex x → classify c4 = .uhex y →
      (op = 0x4#4 → r ≠ 0x0#4 → decodeToken [hexChar op, c2, c3, c4] = .refuse .copyRegFieldNonZero) ∧
      (op = 0xB#4 → (9 < x.toNat ∨ 9 < y.toNat) →
        decodeToken [hexChar op, c2, c3, c4] = .refuse .jumpTargetNotDecimal))

/-- R101: the text form of a byte is two uppercase hex digits, and `fromHex` reads it back. -/
def Obligations.HexTextOfAByte : Prop :=
  ∀ b : Byte, byteFromHex (byteToHex b) = .ok b ∧ (byteToHex b).length = 2 ∧
    WellFormed.tokenUppercaseHex (byteToHex b) = true

/-- Tokens of 95_test_vectors.md section 2.1 decode as that table says: "2005", "1A3F", "3100", "40F3", "5FAB", "6012",
"B099", "B010", "CFFF". -/
def Obligations.SampleTokensDecode : Prop :=
  decodeToken [0x32#8, 0x30#8, 0x30#8, 0x35#8] = .ok (.loadImm 0 0x05#8) (0x20#8, 0x05#8) ∧
  decodeToken [0x31#8, 0x41#8, 0x33#8, 0x46#8] = .ok (.loadMem 10 0x3F#8) (0x1A#8, 0x3F#8) ∧
  decodeToken [0x33#8, 0x31#8, 0x30#8, 0x30#8] = .ok (.store 1 0x00#8) (0x31#8, 0x00#8) ∧
  decodeToken [0x34#8, 0x30#8, 0x46#8, 0x33#8] = .ok (.copy 3) (0x40#8, 0xF3#8) ∧
  decodeToken [0x35#8, 0x46#8, 0x41#8, 0x42#8] = .ok (.addInt 15 10 11) (0x5F#8, 0xAB#8) ∧
  decodeToken [0x36#8, 0x30#8, 0x31#8, 0x32#8] = .ok (.addFloat 0 1 2) (0x60#8, 0x12#8) ∧
  decodeToken [0x42#8, 0x30#8, 0x39#8, 0x39#8] = .ok (.jumpEq 0 99) (0xB0#8, 0x99#8) ∧
  decodeToken [0x42#8, 0x30#8, 0x31#8, 0x30#8] = .ok (.jumpEq 0 10) (0xB0#8, 0x10#8) ∧
  decodeToken [0x43#8, 0x46#8, 0x46#8, 0x46#8] = .ok .halt (0xCF#8, 0xFF#8)

/-- The tokens of a text (30_encoding.md section 3): none is empty or holds whitespace, no other character is lost or
moved, whitespace always separates, and characters without whitespace between them stay together. Whitespace is exactly
the six bytes 0x20 and 0x09 to 0x0D, which is the spec's decision D2 (log entry 21). -/
def Obligations.TokensOfAText : Prop :=
  (∀ c : Byte, isSpace c = true ↔ c ∈ [0x20#8, 0x09#8, 0x0A#8, 0x0B#8, 0x0C#8, 0x0D#8]) ∧
  (∀ (text : List Byte), ∀ tok ∈ splitTokens text, tok ≠ [] ∧ ∀ c ∈ tok, isSpace c = false) ∧
  (∀ text : List Byte, (splitTokens text).flatten = text.filter fun c => !isSpace c) ∧
  (∀ (a b : List Byte) (c : Byte), isSpace c = true → splitTokens (a ++ c :: b) = splitTokens a ++ splitTokens b) ∧
  (∀ tok : List Byte, tok ≠ [] → (∀ c ∈ tok, isSpace c = false) → splitTokens tok = [tok])

/-- Where withFetchWord places a word, the next step executes its instruction, in any state, for every instruction.
withFetchWord is the model's own device, a DESIGN CHOICE (log entry 11): it sets the status Running, clears the refusal mark
and writes no memory image, none of which is a rule of the spec. -/
def Obligations.PlacedWordIsExecutedNext : Prop :=
  ∀ (s : State) (i : Instr),
    decodeTableWord 16 (encode i).toNat = some i ∧ (s.withFetchWord 16 (encode i).toNat).Executes i

/-! ### The step -/

/-- The step (44_fetch_execute.md). A step exists only while Running and not refused. An out-of-bounds fetch sets the status Halted and
leaves all else, the outputs among it. Otherwise the step is the execution of the instruction in slot `pc`, and the status
is Halted where that leaves the pc negative. -/
def Obligations.StepFetchesAndExecutes : Prop :=
  ∀ s : State,
    ((s.status ≠ .running ∨ s.refused ≠ none) → ∀ t, step s ≠ .next t) ∧
    (s.status = .running → s.refused = none → (s.pc < 0 ∨ (s.prog.length : Int) ≤ s.pc) →
      step s = .next { s with status := .halted }) ∧
    (∀ i : Instr, s.status = .running → s.refused = none → 0 ≤ s.pc → s.prog[s.pc.toNat]? = some i →
      step s = exec i s ∧ ∀ t, exec i s = .next t → t.pc < 0 → t.status = .halted)

/-- The next pc and status of every instruction, in every state whose pc is a slot index (44_fetch_execute.md, the table
of control effects). That a taken jump to its own slot does not advance is the spec's decision D12. -/
def Obligations.NextPcAndStatus : Prop :=
  ∀ (i : Instr) (s t : State), 0 ≤ s.pc → exec i s = .next t →
    t.pc = (match i with
      | .halt => -1
      | .jumpEq r target => if s.reg r = s.reg 0 then (target.val : Int) else s.pc + 1
      | .loadMem _ _ => s.pc + 1
      | .loadImm _ _ => s.pc + 1
      | .store _ _ => s.pc + 1
      | .copy _ => s.pc + 1
      | .addInt _ _ _ => s.pc + 1
      | .addFloat _ _ _ => s.pc + 1) ∧
    t.status = if i = .halt then .halted else s.status

/-- The execute step is total: while Running and not refused, every step answers a next state (the spec's own inference
in 60_exceptions.md section 1). The accumulator is unbounded in this model (log entry 5). -/
def Obligations.StepIsTotal : Prop :=
  ∀ s : State, s.Ready → ∃ t, step s = .next t

/-- No step writes the program store, the load cursor or the refusal mark: stores never change code, and the run loop
never touches the cursor (10_state.md section 5, 20_memory.md section 6). -/
def Obligations.StepKeepsProgramCursorAndMark : Prop :=
  ∀ s t : State, step s = .next t → t.prog = s.prog ∧ t.cursor = s.cursor ∧ t.refused = s.refused

/-- The outputs are never read back: a step from the same state with other contents in the output channels answers alike,
leaves the same state, and emits the same: one trace event where an instruction is executed and none at an out-of-bounds
fetch, and the same diagnostics (10_state.md section 6, 44_fetch_execute.md on the trace). -/
def Obligations.OutputsAreNeverReadBack : Prop :=
  ∀ (s : State) (o : Outputs),
    (∀ t, step s = .next t → ∃ (events : List TraceEvent) (raised : List Diagnostic),
      events.length = (if s.fetch = none then 0 else 1) ∧
      t.out = { trace := s.out.trace ++ events, diags := s.out.diags ++ raised } ∧
      step (s.withOut o) = .next (t.withOut { trace := o.trace ++ events, diags := o.diags ++ raised })) ∧
    (∀ f, step s = .fault f → step (s.withOut o) = .fault f) ∧
    (∀ r, step s = .refused r → step (s.withOut o) = .refused r)

/-- Only StoreToMemory to address 00 with a value above 127 raises a diagnostic at run time. It raises one, with its slot
and the value, changes no cell, and the run goes on with the next slot (60_exceptions.md sections 1 and 2). -/
def Obligations.OnlyAnAppendOutOfRangeRaises : Prop :=
  ∀ s t : State, step s = .next t → t.out.diags ≠ s.out.diags →
    ∃ r : Reg, s.fetch = some (.store r 0x00#8) ∧ 127 < (s.reg r).toNat ∧
      t.out.diags = s.out.diags ++ [.outOfAsciiRange s.pc (s.reg r)] ∧
      (∀ a, memRead t a = memRead s a) ∧ t.cell0 = s.cell0 ∧ t.regs = s.regs ∧
      t.pc = s.pc + 1 ∧ t.status = .running

/-- Only StoreToMemory changes what data memory reads as, and only at its own address (10_state.md sections 2 and 5,
20_memory.md sections 1 and 3). -/
def Obligations.OnlyAStoreChangesMemory : Prop :=
  ∀ (s t : State) (a : Int), step s = .next t → memRead t a ≠ memRead s a →
    ∃ (r : Reg) (b : Byte), s.fetch = some (.store r b) ∧ a = b.toNat

/-- Cell 0 is append-only during a run: a step leaves its content, or is a StoreToMemory to address 00 and puts one code
after the text that was there (20_memory.md section 3). -/
def Obligations.AccumulatorIsAppendOnly : Prop :=
  ∀ s t : State, step s = .next t →
    t.cell0 = s.cell0 ∨
    ∃ (r : Reg) (c : Ascii), s.fetch = some (.store r 0x00#8) ∧ c.toNat = (s.reg r).toNat ∧
      t.cell0 = .text ((match s.cell0 with
        | .text x => x
        | .byte b => if b = 0x00#8 then [] else Config.accPrefix b) ++ [c])

/-- Which registers each instruction writes: every other register keeps its value (the spec's own inference, the table of
10_state.md section 2). -/
def Obligations.RegistersWritten : Prop :=
  ∀ (i : Instr) (s t : State) (q : Reg), exec i s = .next t → i.dest ≠ some q → t.reg q = s.reg q

/-- Which registers each instruction reads: another value in a register outside them changes nothing else (the spec's own
inference, the table of 10_state.md section 2). -/
def Obligations.RegistersRead : Prop :=
  ∀ (i : Instr) (s t : State) (q : Reg) (v : Byte), exec i s = .next t → q ∉ i.reads →
    ∃ t', exec i (s.setReg q v) = .next t' ∧ t' = { t with regs := t'.regs } ∧
      ∀ p : Reg, t'.reg p = if p = q ∧ i.dest ≠ some q then v else t.reg p

/-! ### The instructions

Each result names the whole next state; `s.setReg r v` is `x[r] <- v` (10_state.md R21) and changes nothing else.
`0 ≤ s.pc` says that the pc is a slot index, as it is whenever an instruction executes (10_state.md R26). -/

/-- R140, LoadFromMemory. Cell 0 reads as its byte, or as `READ_TEXT` of its text, whatever that function is. -/
def Obligations.LoadMemResult : Prop :=
  ∀ (r : Reg) (a : Byte) (s : State), 0 ≤ s.pc →
    decodeWord (0x1#4 ++ regDigit r ++ a) = .ok (.loadMem r a) (0x1#4 ++ regDigit r, a) ∧
    ∃ v : Byte,
      v = (if a = 0x00#8 then
        (match s.cell0 with
          | .byte b => b
          | .text x => Config.readText x)
        else Memory.read s.mem a.toNat) ∧
      exec (.loadMem r a) s = .next
        { s.setReg r v with
          pc := s.pc + 1
          out := { s.out with trace := s.out.trace ++ [.regWritten r v] } }

/-- R141, LoadImmediate: the operand byte, stored verbatim. -/
def Obligations.LoadImmResult : Prop :=
  ∀ (r : Reg) (v : Byte) (s : State), 0 ≤ s.pc →
    decodeWord (0x2#4 ++ regDigit r ++ v) = .ok (.loadImm r v) (0x2#4 ++ regDigit r, v) ∧
    exec (.loadImm r v) s = .next
      { s.setReg r v with
        pc := s.pc + 1
        out := { s.out with trace := s.out.trace ++ [.regWritten r v] } }

/-- R142, StoreToMemory. Away from address 00 it replaces the byte at its address and no other. At address 00 a code up
to 127 is appended to the text of cell 0, and a value above 127 raises `OutOfAsciiRange` and changes no cell. -/
def Obligations.StoreResult : Prop :=
  ∀ (r : Reg) (a : Byte) (s : State), 0 ≤ s.pc →
    decodeWord (0x3#4 ++ regDigit r ++ a) = .ok (.store r a) (0x3#4 ++ regDigit r, a) ∧
    (a ≠ 0x00#8 → ∃ t, exec (.store r a) s = .next t ∧
      (∀ b : Int, memRead t b = if b = a.toNat then s.reg r else memRead s b) ∧
      t = { s with
        mem := t.mem
        pc := s.pc + 1
        out := { s.out with trace := s.out.trace ++ [.memWritten a (s.reg r)] } }) ∧
    (a = 0x00#8 → (s.reg r).toNat ≤ 127 → ∃ c : Ascii, c.toNat = (s.reg r).toNat ∧
      exec (.store r a) s = .next
        { s with
          cell0 := .text ((match s.cell0 with
            | .text x => x
            | .byte b => if b = 0x00#8 then [] else Config.accPrefix b) ++ [c])
          pc := s.pc + 1
          out := { s.out with trace := s.out.trace ++ [.accAppended (s.reg r) true] } }) ∧
    (a = 0x00#8 → 127 < (s.reg r).toNat →
      exec (.store r a) s = .next
        { s with
          pc := s.pc + 1
          out := {
            trace := s.out.trace ++ [.accAppended (s.reg r) false]
            diags := s.out.diags ++ [.outOfAsciiRange s.pc (s.reg r)] } })

/-- CopyRegister (41_data_transfer.md): x10 goes to the destination, whatever the first operand digit is. -/
def Obligations.CopyResult : Prop :=
  ∀ (d : Reg) (x : Nibble) (s : State), 0 ≤ s.pc →
    decodeWord (0x4#4 ++ 0x0#4 ++ x ++ regDigit d) = .ok (.copy d) (0x4#4 ++ 0x0#4, x ++ regDigit d) ∧
    exec (.copy d) s = .next
      { s.setReg d (s.reg 10) with
        pc := s.pc + 1
        out := { s.out with trace := s.out.trace ++ [.regWritten d (s.reg 10)] } }

/-- R160, Add: the sum of the signed readings, modulo 256, with the sources read before the write. -/
def Obligations.AddResult : Prop :=
  ∀ (d a b : Reg) (s : State), 0 ≤ s.pc →
    decodeWord (0x5#4 ++ regDigit d ++ regDigit a ++ regDigit b) =
      .ok (.addInt d a b) (0x5#4 ++ regDigit d, regDigit a ++ regDigit b) ∧
    ∃ v : Byte, (v.toNat : Int) = ((s.reg a).toInt + (s.reg b).toInt) % 256 ∧
      exec (.addInt d a b) s = .next
        { s.setReg d v with
          pc := s.pc + 1
          out := { s.out with trace := s.out.trace ++ [.regWritten d v] } }

/-- Add is also the unsigned sum modulo 256 (the spec's own inference in 42_arithmetic.md), so it wraps silently. -/
def Obligations.AddIsTheUnsignedSum : Prop :=
  ∀ (d a b : Reg) (s t : State), exec (.addInt d a b) s = .next t → t.reg d = s.reg a + s.reg b

/-- AddFloat (42_arithmetic.md): the exact rational sum of the decoded sources, encoded. The model computes it in the
integer form, which is the spec's own inference (log entry 14); an exact zero encodes as 0x00 by the spec's decision D13
(log entry 17). -/
def Obligations.AddFloatIsTheRationalSum : Prop :=
  ∀ (d a b : Reg) (s : State), 0 ≤ s.pc →
    decodeWord (0x6#4 ++ regDigit d ++ regDigit a ++ regDigit b) =
      .ok (.addFloat d a b) (0x6#4 ++ regDigit d, regDigit a ++ regDigit b) ∧
    exec (.addFloat d a b) s = .next
      { s.setReg d (f8Encode (f8Decode (s.reg a) + f8Decode (s.reg b))) with
        pc := s.pc + 1
        out := { s.out with
          trace := s.out.trace ++ [.regWritten d (f8Encode (f8Decode (s.reg a) + f8Decode (s.reg b)))] } }

/-- JumpIfEqual (43_control_transfer.md): the target slot exactly where the registers are equal, else the next slot. With
r = 0 the jump is always taken. A taken jump to its own slot does not advance, by the spec's decision D12. -/
def Obligations.JumpResult : Prop :=
  ∀ (r : Reg) (t : Target) (s : State), 0 ≤ s.pc →
    decodeWord (0xB#4 ++ regDigit r ++ BitVec.ofNat 4 (t.val / 10) ++ BitVec.ofNat 4 (t.val % 10)) =
      .ok (.jumpEq r t) (0xB#4 ++ regDigit r, BitVec.ofNat 4 (t.val / 10) ++ BitVec.ofNat 4 (t.val % 10)) ∧
    ((r = 0 ∨ s.reg r = s.reg 0) → exec (.jumpEq r t) s = .next
      { s with
        pc := t.val
        out := { s.out with trace := s.out.trace ++ [.jumpTaken t] } }) ∧
    (s.reg r ≠ s.reg 0 → exec (.jumpEq r t) s = .next
      { s with
        pc := s.pc + 1
        out := { s.out with trace := s.out.trace ++ [.jumpNotTaken t] } })

/-- R181, Halt: the pc becomes -1 and the status Halted; no register and no memory cell changes. -/
def Obligations.HaltResult : Prop :=
  ∀ (r x y : Nibble) (s : State),
    decodeWord (0xC#4 ++ r ++ x ++ y) = .ok .halt (0xC#4 ++ r, x ++ y) ∧
    exec .halt s = .next
      { s with
        pc := -1
        status := .halted
        out := { s.out with trace := s.out.trace ++ [.halted] } }

/-! ### The float-8 codec -/

/-- The integer form of a code's value, and its bounds (the spec's own inference in 40_float_codec.md section 2). -/
def Obligations.F8DecodeScaledBy256 : Prop :=
  ∀ b : Byte, f8Decode b = (f8Scaled b : ℚ) / 256 ∧ 16 ≤ |f8Scaled b| ∧ |f8Scaled b| ≤ 3968

/-- The integer form of the encoder agrees with the rational rule on every multiple of 1/256 (the spec's own inference
in 40_float_codec.md section 3). Both give 0x00 for zero by the spec's decision D13 (log entry 17). -/
def Obligations.F8EncodeIntegerForm : Prop :=
  ∀ n : Int, f8EncodeInt n = f8Encode ((n : ℚ) / 256)

/-- Every code round-trips through the rationals (the spec's own inference in 40_float_codec.md section 4). -/
def Obligations.F8RoundTrip : Prop :=
  ∀ b : Byte, f8Encode (f8Decode b) = b

/-- The format has no zero, its magnitudes lie in 1/16 .. 31/2, and every magnitude has exactly two codes, one of each
sign (the spec's own inference in 40_float_codec.md section 1). -/
def Obligations.F8Magnitudes : Prop :=
  (∀ b : Byte, (1 : ℚ) / 16 ≤ |f8Decode b| ∧ |f8Decode b| ≤ 31 / 2) ∧
  (∀ b : Byte, f8Decode (b ^^^ 0x80#8) = -f8Decode b) ∧
  (∀ b c : Byte, |f8Decode b| = |f8Decode c| → c = b ∨ c = b ^^^ 0x80#8)

/-- Saturation, for every rational: at 16 and above to 0x7F or 0xFF, below 1/16 to 0x00 or 0x80 (the spec's own inference
in 40_float_codec.md section 3). An exact zero encodes as 0x00, which is the spec's decision D13 (log entry 17). -/
def Obligations.F8Saturates : Prop :=
  f8Encode 0 = 0x00#8 ∧ ∀ q : ℚ,
    (16 ≤ q → f8Encode q = 0x7F#8) ∧
    (q ≤ -16 → f8Encode q = 0xFF#8) ∧
    (0 < q → q < 1 / 16 → f8Encode q = 0x00#8) ∧
    (-(1 / 16) < q → q < 0 → f8Encode q = 0x80#8)

/-- Truncation toward zero, for every rational in range: the encoded value has the sign of `q`, is no larger in magnitude,
and is off by less than one step, 1/16 of the power of two at or below the magnitude (the spec's own inference in
40_float_codec.md section 4). -/
def Obligations.F8TruncatesTowardZero : Prop :=
  ∀ (q : ℚ) (e : ℤ), 1 / 16 ≤ |q| → |q| < 16 → (2 : ℚ) ^ e ≤ |q| → |q| < (2 : ℚ) ^ (e + 1) →
    (0 < f8Decode (f8Encode q) ↔ 0 < q) ∧
    |f8Decode (f8Encode q)| ≤ |q| ∧
    |q| < |f8Decode (f8Encode q)| + (2 : ℚ) ^ e / 16

/-! ### LOAD -/

/-- What an accepted LOAD does with its tokens (45_loader_and_host.md section 2). It consumes a first part of them, all of
them unless a Halt ended it; appends the instructions of those that decode; reports those that skip, by index; moves the
cursor by 2 for each instruction; sets the pc to 0; and leaves the registers, the status and the trace. A skipped token
having no other effect is the spec's decision D4, the report's fields are D23, the tokens after a Halt D31. -/
def Obligations.LoadDoesWhatItsTokensSay : Prop :=
  ∀ (tokens : List Token) (start : Int) (s t : State) (rep : LoadReport), load tokens start s = (.loaded rep, t) →
    ∃ (consumed rest : List Token) (added : List Instr),
      tokens = consumed ++ rest ∧
      added = consumed.filterMap tokenInstr ∧
      rep.diags = consumed.zipIdx.filterMap (fun c => tokenDiagnostic c.1 c.2) ∧
      (∀ tok ∈ consumed, ∀ reason, decodeToken tok ≠ .refuse reason) ∧
      (rest ≠ [] → rep.endedByHalt = true) ∧
      (rep.endedByHalt = true ↔ added.getLast? = some .halt) ∧
      Instr.halt ∉ added.dropLast ∧
      rep.appended = added.length ∧
      t.prog = s.prog ++ added ∧
      t.cursor = start + 2 * rep.appended ∧
      t.pc = 0 ∧ t.regs = s.regs ∧ t.status = s.status ∧ t.refused = none ∧ t.out.trace = s.out.trace

/-- The two bytes of a stored word's image (45_loader_and_host.md section 2): the first at the cursor, the second after
it, each dropped outside 0..255, and every other address as before. The order is the spec's decision D28, and that a byte
at address 0 replaces a text is its decision D15. -/
def Obligations.StoredWordImage : Prop :=
  ∀ (s : State) (i : Instr) (img : Byte × Byte) (a : Int),
    memRead (s.storeWord i img) a =
      if a < 0 ∨ 255 < a then 0x00#8
      else if a = s.cursor then img.1
      else if a = s.cursor + 1 then img.2
      else memRead s a

/-- LOAD changes no memory outside the image it writes (the spec's own inference in 45_loader_and_host.md section 2): no
cell reads otherwise, and cell 0 keeps its content, byte or text. -/
def Obligations.LoadMemoryFrame : Prop :=
  ∀ (tokens : List Token) (start : Int) (s t : State) (rep : LoadReport) (a : Int),
    load tokens start s = (.loaded rep, t) → (a < start ∨ start + 2 * rep.appended ≤ a) →
      memRead t a = memRead s a ∧ (a = 0 → t.cell0 = s.cell0)

/-- An admitted word joins the program store as its last slot (45_loader_and_host.md section 2); a Halt ends loading right after it is stored, so the
tokens behind it make no difference, be they admitted, skipped or refused; and running out of tokens simply ends loading.
That they are not even decoded is the spec's decision D31. In a machine with a bounded store the word must fit it. -/
def Obligations.HaltEndsLoading : Prop :=
  ∀ (cap : Option Nat) (k n : Nat) (s : State),
    (∀ (tok : Token) (rest : List Token) (i : Instr) (img : Byte × Byte), decodeToken tok = .ok i img →
      withinCapacity cap (s.prog.length + 1) = true →
      (s.storeWord i img).prog = s.prog ++ [i] ∧
      loadTokens cap k n (tok :: rest) s =
        if i = .halt then
          (.loaded { diags := s.out.diags, appended := n + 1, endedByHalt := true }, { s.storeWord i img with pc := 0 })
        else loadTokens cap (k + 1) (n + 1) rest (s.storeWord i img)) ∧
    (∀ (before rest : List Token) (tok : Token) (img : Byte × Byte), decodeToken tok = .ok .halt img →
      loadTokens cap k n (before ++ tok :: rest) s = loadTokens cap k n (before ++ [tok]) s) ∧
    loadTokens cap k n [] s =
      (.loaded { diags := s.out.diags, appended := n, endedByHalt := false }, { s with pc := 0 })

/-- LOAD of no tokens changes only the cursor and the pc, and starts a new report (the spec's own inference in
45_loader_and_host.md section 5). -/
def Obligations.EmptyLoad : Prop :=
  ∀ (start : Int) (s : State), s.refused = none →
    load [] start s =
      (.loaded { diags := [], appended := 0, endedByHalt := false },
        { s with cursor := start, pc := 0, out := { s.out with diags := [] } })

/-- A refused token makes the whole LOAD refused and sets the mark for good: from then on every LOAD, RUN and step is
refused with the reason, and none of them clears the mark. For LOAD and RUN this is the spec's decision D32. That a step of
a refused machine answers a refusal, whatever the status, is the model's choice (log entry 9), and so is that the other
fields stay as they are, of which the spec claims nothing (log entry 22). -/
def Obligations.RefusalIsForGood : Prop :=
  (∀ (cap : Option Nat) (k n : Nat) (tok : Token) (rest : List Token) (s : State) (reason : RefuseReason),
    decodeToken tok = .refuse reason →
    loadTokens cap k n (tok :: rest) s = (.refused reason, { s with refused := some reason })) ∧
  (∀ (s : State) (reason : RefuseReason), s.refused = some reason →
    (∀ tokens start, load tokens start s = (.refused reason, s)) ∧
    (∀ fuel, run fuel s = some (.refused (.machineRefused reason), s)) ∧
    step s = .refused (.machineRefused reason))

/-- A machine with a bound refuses past it: a LOAD that would pass a bound on the program store, and exactly the appends,
to any content of cell 0, that would pass a bound on the accumulator. A refused step makes the whole RUN refused, and a
refused append sets the mark. These are the spec's decisions D18 and D19; this model's own machine has no bounds (log entries
5 and 6). That the other fields of a refused machine stay as they were is the model's choice (log entry 22). -/
def Obligations.CapacityBoundsRefuse : Prop :=
  (∀ (c k n : Nat) (tok : Token) (rest : List Token) (s : State) (i : Instr) (img : Byte × Byte),
    decodeToken tok = .ok i img → c ≤ s.prog.length →
    loadTokens (some c) k n (tok :: rest) s =
      (.refused .progCapacityExceeded, { s with refused := some .progCapacityExceeded })) ∧
  (∀ (c : Nat) (b : Byte) (x : Cell0), accAppend (some c) b x = .full ↔ b.toNat ≤ 127 ∧ c ≤ (Cell0.heldText x).length) ∧
  (∀ (c : Nat) (r : Reg) (a : Byte) (s : State),
    execStoreWithin (some c) r a s =
      if a = 0x00#8 ∧ (s.reg r).toNat ≤ 127 ∧ c ≤ (Cell0.heldText s.cell0).length then .refused .accumulatorFull
      else exec (.store r a) s) ∧
  (∀ (cap : Option Nat) (fuel : Nat) (s : State) (q : Refusal), stepWithin cap s = .refused q →
    runLoopWith (stepWithin cap) (fuel + 1) s = some (.refused q, s.markRefused q)) ∧
  (∀ s : State, s.markRefused .accumulatorFull = { s with refused := some .accCapacityExceeded })

/-! ### RUN and SNAPSHOT -/

/-- Nothing is fatal (60_exceptions.md section 1). A RUN of a machine that is not refused ends in a report, and its last
step either executes the Halt opcode, the reason being HaltInstruction and the pc -1, or is a fetch out of the program's
bounds, the reason being EndOfProgram and the pc as it was. The report carries the final pc and the diagnostics raised, and
the program is as it was. That these are the two reasons is the spec's own inference in 44_fetch_execute.md, the report's
fields are its decision D23 (log entry 23), and that a RUN is not refused on the way rests on the unbounded accumulator (log
entry 5). -/
def Obligations.RunEndsOnlyByHaltOrOutOfBounds : Prop :=
  ∀ (resetsPc : Bool) (fuel : Nat) (s t : State) (o : RunOutcome), s.refused = none →
    runWith resetsPc fuel s = some (o, t) →
    t.status = .halted ∧ t.prog = s.prog ∧ t.refused = none ∧
    ∃ (k : Nat) (u : State), k < fuel ∧ stepsTo k (s.beginRun resetsPc) u ∧ step u = .next t ∧
      ((u.fetch = some .halt ∧ o = .ran { reason := .haltInstruction, pc := t.pc, diags := t.out.diags } ∧ t.pc = -1) ∨
       (u.fetch = none ∧ o = .ran { reason := .endOfProgram, pc := t.pc, diags := t.out.diags } ∧ t.pc = u.pc ∧
         (u.pc < 0 ∨ (u.prog.length : Int) ≤ u.pc)))

/-- A run that ends is a sequence of steps from Running to Halted (45_loader_and_host.md section 3). It starts with the pc
at 0 where `RUN_RESETS_PC` is true and where it was otherwise, the status Running, no diagnostics, and all else as it was.
Which value the parameter has is open, decision D11 (log entry 2). -/
def Obligations.RunIsASequenceOfSteps : Prop :=
  ∀ (resetsPc : Bool) (fuel : Nat) (s t : State) (rep : RunReport),
    runWith resetsPc fuel s = some (.ran rep, t) →
    t.status = .halted ∧
    ∃ k, 0 < k ∧ k ≤ fuel ∧
      stepsTo k
        { s with
          pc := if resetsPc then 0 else s.pc
          status := .running
          out := { s.out with diags := [] } } t

/-- The outcome of a run does not depend on the fuel: a longer allowance ends in the same outcome and state, so running
out of fuel is no final state (44_fetch_execute.md on runs that never end; the fuel is the model's, log entry 12). -/
def Obligations.RunDoesNotDependOnFuel : Prop :=
  ∀ (resetsPc : Bool) (m n : Nat) (s : State) (x : RunOutcome × State),
    runWith resetsPc m s = some x → m ≤ n → runWith resetsPc n s = some x

/-- A taken jump to its own slot runs for ever, and no step of it changes the block's state, only the trace
(43_control_transfer.md on JumpIfEqual; the jump not advancing is the spec's decision D12). -/
def Obligations.JumpToItselfNeverEnds : Prop :=
  ∀ (s : State) (r : Reg) (target : Target), s.Executes (.jumpEq r target) → s.pc = target.val →
    s.reg r = s.reg 0 →
    step s = .next (s.withOut { s.out with trace := s.out.trace ++ [.jumpTaken target] }) ∧
    ∀ fuel, runLoop fuel s = none

/-- RUN of an empty program store ends at once at slot 0, whatever `RUN_RESETS_PC` is (the spec's own inference in
45_loader_and_host.md section 5). -/
def Obligations.EmptyProgramEndsAtOnce : Prop :=
  ∀ (fuel : Nat) (s : State), s.refused = none → s.prog = [] → s.pc = 0 →
    run (fuel + 1) s =
      some (.ran { reason := .endOfProgram, pc := 0, diags := [] },
        { s with status := .halted, out := { s.out with diags := [] } })

/-- After a run that ended by Halt, a second RUN with `RUN_RESETS_PC = false` ends at once at the out-of-bounds fetch,
with the pc still -1 (45_loader_and_host.md section 3; both values of the parameter are open, decision D11). -/
def Obligations.SecondRunAfterHaltEndsAtOnce : Prop :=
  ∀ (fuel : Nat) (s : State), s.refused = none → s.pc = -1 →
    runWith false (fuel + 1) s =
      some (.ran { reason := .endOfProgram, pc := -1, diags := [] },
        { s with status := .halted, out := { s.out with diags := [] } })

/-- SNAPSHOT returns the registers, every cell of data memory, the text of cell 0 exactly as stored, and the pc
(45_loader_and_host.md section 4). -/
def Obligations.SnapshotIsExact : Prop :=
  ∀ s : State,
    (∀ r : Reg, (snapshot s).registers.get r = s.reg r) ∧
    (∀ a : Nat, 1 ≤ a → a ≤ 255 → Memory.read (snapshot s).mem a = memRead s a) ∧
    (snapshot s).cell0 = s.cell0 ∧ (snapshot s).programCounter = s.pc

/-- A machine whose accumulator is bounded. Its step is the unbounded machine's, but for an append that would pass the bound,
which is refused; its RUN is refused exactly where one of its steps is such an append, with the mark set; and without a bound
it is the model's own machine. That such a RUN is refused is the spec's decision D18. That the other fields stay as that step
found them is the model's choice (log entry 22), and so is a machine without a bound (log entry 5). -/
def Obligations.BoundedAccumulatorRefusesTheRun : Prop :=
  (∀ (c : Nat) (r : Reg) (s : State), s.Executes (.store r 0x00#8) → (s.reg r).toNat ≤ 127 →
    c ≤ (Cell0.heldText s.cell0).length → stepWithin (some c) s = .refused .accumulatorFull) ∧
  (∀ (c : Nat) (s : State),
    (∀ r : Reg, s.Executes (.store r 0x00#8) → (s.reg r).toNat ≤ 127 → (Cell0.heldText s.cell0).length < c) →
    stepWithin (some c) s = step s) ∧
  (∀ (c : Nat) (resetsPc : Bool) (fuel : Nat) (s t : State), s.refused = none →
    (runWithin (some c) resetsPc fuel s = some (.refused .accumulatorFull, t) ↔
      ∃ (k : Nat) (u : State), k < fuel ∧ stepsToWith (stepWithin (some c)) k (s.beginRun resetsPc) u ∧
        stepWithin (some c) u = .refused .accumulatorFull ∧
        t = { u with refused := some .accCapacityExceeded })) ∧
  (∀ (resetsPc : Bool) (fuel : Nat) (s : State),
    stepWithin none s = step s ∧ runWithin none resetsPc fuel s = runWith resetsPc fuel s)
end

