-- ==== Sys2Proof/Laws/Decode.lean ====
section
/-! SUPPORT. The digits of words and characters: each is read back where it was written. -/
namespace Sys2Proof

/-! ### A word built from four digits, or from two digits and a byte (30_encoding.md R81, R82) -/

theorem toNat_digits (o r x y : Nibble) :
    (o ++ r ++ x ++ y).toNat = 4096 * o.toNat + 256 * r.toNat + 16 * x.toNat + y.toNat := by
  have := o.isLt; have := r.isLt; have := x.isLt; have := y.isLt
  simp only [BitVec.toNat_append]
  rw [← Nat.shiftLeft_add_eq_or_of_lt (by omega), ← Nat.shiftLeft_add_eq_or_of_lt (by omega),
    ← Nat.shiftLeft_add_eq_or_of_lt (by omega)]
  simp only [Nat.shiftLeft_eq]
  omega

theorem toNat_operand (o r : Nibble) (v : Byte) :
    (o ++ r ++ v).toNat = 4096 * o.toNat + 256 * r.toNat + v.toNat := by
  have := o.isLt; have := r.isLt; have := v.isLt
  simp only [BitVec.toNat_append]
  rw [← Nat.shiftLeft_add_eq_or_of_lt (by omega), ← Nat.shiftLeft_add_eq_or_of_lt (by omega)]
  simp only [Nat.shiftLeft_eq]
  omega

theorem toNat_pair (x y : Nibble) : (x ++ y).toNat = 16 * x.toNat + y.toNat := by
  have := x.isLt; have := y.isLt
  rw [BitVec.toNat_append, ← Nat.shiftLeft_add_eq_or_of_lt (by omega), Nat.shiftLeft_eq]
  omega

/-- The value of a field of a word, in numbers. -/
theorem toNat_field (w : Word) (lo n : Nat) : (w.extractLsb' lo n).toNat = w.toNat / 2 ^ lo % 2 ^ n := by
  simp [BitVec.extractLsb'_toNat, Nat.shiftRight_eq_div_pow]

section Digits
variable (o r x y : Nibble)

theorem digits_op : BitVec.extractLsb' 12 4 (o ++ r ++ x ++ y) = o := by
  have := o.isLt; have := r.isLt; have := x.isLt; have := y.isLt
  apply BitVec.eq_of_toNat_eq
  rw [toNat_field, toNat_digits]
  omega

theorem digits_reg : BitVec.extractLsb' 8 4 (o ++ r ++ x ++ y) = r := by
  have := o.isLt; have := r.isLt; have := x.isLt; have := y.isLt
  apply BitVec.eq_of_toNat_eq
  rw [toNat_field, toNat_digits]
  omega

theorem digits_x : BitVec.extractLsb' 4 4 (o ++ r ++ x ++ y) = x := by
  have := o.isLt; have := r.isLt; have := x.isLt; have := y.isLt
  apply BitVec.eq_of_toNat_eq
  rw [toNat_field, toNat_digits]
  omega

theorem digits_y : BitVec.extractLsb' 0 4 (o ++ r ++ x ++ y) = y := by
  have := o.isLt; have := r.isLt; have := x.isLt; have := y.isLt
  apply BitVec.eq_of_toNat_eq
  rw [toNat_field, toNat_digits]
  omega

end Digits

/-- A byte is its two digits. -/
theorem byte_of_digits (v : Byte) : v.extractLsb' 4 4 ++ v.extractLsb' 0 4 = v := by
  have := v.isLt
  apply BitVec.eq_of_toNat_eq
  rw [toNat_pair]
  simp only [BitVec.extractLsb'_toNat, Nat.shiftRight_eq_div_pow]
  omega

/-- A word whose operand is a byte is a word of four digits. -/
theorem operand_eq_digits (o r : Nibble) (v : Byte) :
    (o ++ r ++ v : Word) = o ++ r ++ v.extractLsb' 4 4 ++ v.extractLsb' 0 4 := by
  have hv := v.isLt
  apply BitVec.eq_of_toNat_eq
  rw [toNat_operand, toNat_digits]
  simp only [BitVec.extractLsb'_toNat, Nat.shiftRight_eq_div_pow]
  omega

/-! ### The encoder's words as four digits -/

theorem encode_loadMem (r : Reg) (a : Byte) :
    encode (.loadMem r a) = 0x1#4 ++ regDigit r ++ a.extractLsb' 4 4 ++ a.extractLsb' 0 4 := operand_eq_digits _ _ _

theorem encode_loadImm (r : Reg) (v : Byte) :
    encode (.loadImm r v) = 0x2#4 ++ regDigit r ++ v.extractLsb' 4 4 ++ v.extractLsb' 0 4 := operand_eq_digits _ _ _

theorem encode_store (r : Reg) (a : Byte) :
    encode (.store r a) = 0x3#4 ++ regDigit r ++ a.extractLsb' 4 4 ++ a.extractLsb' 0 4 := operand_eq_digits _ _ _

theorem encode_copy (d : Reg) : encode (.copy d) = 0x4#4 ++ 0x0#4 ++ 0x0#4 ++ regDigit d := rfl

theorem encode_addInt (d s t : Reg) : encode (.addInt d s t) = 0x5#4 ++ regDigit d ++ regDigit s ++ regDigit t := rfl

theorem encode_addFloat (d s t : Reg) :
    encode (.addFloat d s t) = 0x6#4 ++ regDigit d ++ regDigit s ++ regDigit t := rfl

theorem encode_jumpEq (r : Reg) (t : Target) :
    encode (.jumpEq r t) = 0xB#4 ++ regDigit r ++ BitVec.ofNat 4 (t.val / 10) ++ BitVec.ofNat 4 (t.val % 10) := rfl

/-- The fields of a byte of a word are fields of the word. -/
theorem field_of_byte (w : Word) (b lo : Nat) (h : lo ≤ 4) :
    (w.extractLsb' b 8).extractLsb' lo 4 = w.extractLsb' (b + lo) 4 := by
  ext i hi
  have : lo + i < 8 := by omega
  simp [this, Nat.add_assoc]

theorem encode_halt : encode .halt = 0xC#4 ++ 0x0#4 ++ 0x0#4 ++ 0x0#4 := rfl

/-- The binary form of `Decode` on a word of four digits. -/
theorem decodeWord_digits (o r x y : Nibble) : decodeWord (o ++ r ++ x ++ y) = decodeDigits o r x y := by
  unfold decodeWord
  rw [digits_op, digits_reg, digits_x, digits_y]

/-! ### Characters -/

/-- `hexval` of a digit's character is the digit (00_scope.md R8). -/
@[simp] theorem classify_hexChar (v : Nibble) : classify (hexChar v) = .uhex v := by
  revert v; decide

/-- Only a digit's own character has its `hexval`. -/
theorem eq_hexChar_of_classify {c : Byte} {v : Nibble} (h : classify c = .uhex v) : c = hexChar v := by
  revert c v
  decide

/-- An opcode digit that is not listed is skipped. -/
theorem decodeDigits_of_unknown {op : Nibble} (r x y : Nibble) (h : opcodeKnown op = false) :
    decodeDigits op r x y = .skip .invalidOpcode := by
  simp only [opcodeKnown, List.contains_eq_mem, List.mem_cons, List.not_mem_nil, or_false, decide_eq_false_iff_not,
    not_or] at h
  unfold decodeDigits
  split <;> first | rfl | omega

@[simp] theorem regDigit_toFin (r : Reg) : (regDigit r).toFin = r := rfl

@[simp] theorem regDigit_of_toFin (d : Nibble) : regDigit d.toFin = d := rfl

end Sys2Proof
end

