-- ==== Sys2Proof/Laws/FloatCodec.lean ====
section
/-! SUPPORT. The fields of a float-8 code (40_float_codec.md R120). -/
namespace Sys2Proof.Machine

theorem f8Exponent_lt (b : Byte) : f8Exponent b < 8 := (b.extractLsb' 4 3).isLt

theorem f8Mantissa_lt (b : Byte) : f8Mantissa b < 16 := (b.extractLsb' 0 4).isLt

theorem f8Exponent_eq (b : Byte) : f8Exponent b = b.toNat / 16 % 8 := by
  simp [f8Exponent, BitVec.extractLsb'_toNat, Nat.shiftRight_eq_div_pow]

theorem f8Mantissa_eq (b : Byte) : f8Mantissa b = b.toNat % 16 := by
  simp [f8Mantissa, BitVec.extractLsb'_toNat]

theorem f8Sign_eq (b : Byte) : f8Sign b = decide (128 ≤ b.toNat) := by
  revert b; decide

/-- A code is packed from its fields. -/
theorem f8Pack_fields (b : Byte) : f8Pack (f8Sign b) (f8Exponent b) (f8Mantissa b) = b := by
  revert b; decide

/-- The number of a packed code. -/
theorem toNat_f8Pack (s : Bool) (e m : Nat) : (f8Pack s e m).toNat = 128 * s.toNat + 16 * (e % 8) + m % 16 := by
  have := (BitVec.ofBool s).isLt; have := (BitVec.ofNat 3 e).isLt; have := (BitVec.ofNat 4 m).isLt
  simp only [f8Pack, BitVec.toNat_append]
  rw [← Nat.shiftLeft_add_eq_or_of_lt (by omega), ← Nat.shiftLeft_add_eq_or_of_lt (by omega)]
  simp only [Nat.shiftLeft_eq, BitVec.toNat_ofBool, BitVec.toNat_ofNat]
  omega

@[simp] theorem f8Sign_pack (s : Bool) (e m : Nat) : f8Sign (f8Pack s e m) = s := by
  rw [f8Sign_eq, toNat_f8Pack]
  cases s <;> simp <;> omega

@[simp] theorem f8Exponent_pack (s : Bool) (e m : Nat) : f8Exponent (f8Pack s e m) = e % 8 := by
  rw [f8Exponent_eq, toNat_f8Pack]
  cases s <;> simp <;> omega

@[simp] theorem f8Mantissa_pack (s : Bool) (e m : Nat) : f8Mantissa (f8Pack s e m) = m % 16 := by
  rw [f8Mantissa_eq, toNat_f8Pack]
  omega

end Sys2Proof.Machine
end

