-- ==== Sys2Proof/Laws/State.lean ====
section
/-! SUPPORT. One lemma per field per update of `State`: what the update leaves in the field. -/
namespace Sys2Proof.Machine

/-! ### `setReg` -/

@[simp] theorem State.setReg_regs (s : State) (r : Reg) (v : Byte) : (s.setReg r v).regs = s.regs.set r v := rfl
@[simp] theorem State.setReg_mem (s : State) (r : Reg) (v : Byte) : (s.setReg r v).mem = s.mem := rfl
@[simp] theorem State.setReg_cell0 (s : State) (r : Reg) (v : Byte) : (s.setReg r v).cell0 = s.cell0 := rfl
@[simp] theorem State.setReg_prog (s : State) (r : Reg) (v : Byte) : (s.setReg r v).prog = s.prog := rfl
@[simp] theorem State.setReg_pc (s : State) (r : Reg) (v : Byte) : (s.setReg r v).pc = s.pc := rfl
@[simp] theorem State.setReg_status (s : State) (r : Reg) (v : Byte) : (s.setReg r v).status = s.status := rfl
@[simp] theorem State.setReg_cursor (s : State) (r : Reg) (v : Byte) : (s.setReg r v).cursor = s.cursor := rfl
@[simp] theorem State.setReg_refused (s : State) (r : Reg) (v : Byte) : (s.setReg r v).refused = s.refused := rfl
@[simp] theorem State.setReg_out (s : State) (r : Reg) (v : Byte) : (s.setReg r v).out = s.out := rfl

/-! ### `raise` -/

@[simp] theorem State.raise_regs (s : State) (d : Diagnostic) : (s.raise d).regs = s.regs := rfl
@[simp] theorem State.raise_mem (s : State) (d : Diagnostic) : (s.raise d).mem = s.mem := rfl
@[simp] theorem State.raise_cell0 (s : State) (d : Diagnostic) : (s.raise d).cell0 = s.cell0 := rfl
@[simp] theorem State.raise_prog (s : State) (d : Diagnostic) : (s.raise d).prog = s.prog := rfl
@[simp] theorem State.raise_pc (s : State) (d : Diagnostic) : (s.raise d).pc = s.pc := rfl
@[simp] theorem State.raise_status (s : State) (d : Diagnostic) : (s.raise d).status = s.status := rfl
@[simp] theorem State.raise_cursor (s : State) (d : Diagnostic) : (s.raise d).cursor = s.cursor := rfl
@[simp] theorem State.raise_refused (s : State) (d : Diagnostic) : (s.raise d).refused = s.refused := rfl
@[simp] theorem State.raise_out (s : State) (d : Diagnostic) : (s.raise d).out = { s.out with diags := s.out.diags ++ [d] } := rfl

/-! ### `emit` -/

@[simp] theorem State.emit_regs (s : State) (e : TraceEvent) : (s.emit e).regs = s.regs := rfl
@[simp] theorem State.emit_mem (s : State) (e : TraceEvent) : (s.emit e).mem = s.mem := rfl
@[simp] theorem State.emit_cell0 (s : State) (e : TraceEvent) : (s.emit e).cell0 = s.cell0 := rfl
@[simp] theorem State.emit_prog (s : State) (e : TraceEvent) : (s.emit e).prog = s.prog := rfl
@[simp] theorem State.emit_pc (s : State) (e : TraceEvent) : (s.emit e).pc = s.pc := rfl
@[simp] theorem State.emit_status (s : State) (e : TraceEvent) : (s.emit e).status = s.status := rfl
@[simp] theorem State.emit_cursor (s : State) (e : TraceEvent) : (s.emit e).cursor = s.cursor := rfl
@[simp] theorem State.emit_refused (s : State) (e : TraceEvent) : (s.emit e).refused = s.refused := rfl
@[simp] theorem State.emit_out (s : State) (e : TraceEvent) : (s.emit e).out = { s.out with trace := s.out.trace ++ [e] } := rfl

/-! ### `complete` -/

@[simp] theorem State.complete_regs (s : State) (f : ControlEffect) (e : TraceEvent) : (s.complete f e).regs = s.regs := rfl
@[simp] theorem State.complete_mem (s : State) (f : ControlEffect) (e : TraceEvent) : (s.complete f e).mem = s.mem := rfl
@[simp] theorem State.complete_cell0 (s : State) (f : ControlEffect) (e : TraceEvent) : (s.complete f e).cell0 = s.cell0 := rfl
@[simp] theorem State.complete_prog (s : State) (f : ControlEffect) (e : TraceEvent) : (s.complete f e).prog = s.prog := rfl
@[simp] theorem State.complete_pc (s : State) (f : ControlEffect) (e : TraceEvent) : (s.complete f e).pc = advance s.pc f := rfl
@[simp] theorem State.complete_status (s : State) (f : ControlEffect) (e : TraceEvent) : (s.complete f e).status = if advance s.pc f < 0 then .halted else s.status := rfl
@[simp] theorem State.complete_cursor (s : State) (f : ControlEffect) (e : TraceEvent) : (s.complete f e).cursor = s.cursor := rfl
@[simp] theorem State.complete_refused (s : State) (f : ControlEffect) (e : TraceEvent) : (s.complete f e).refused = s.refused := rfl
@[simp] theorem State.complete_out (s : State) (f : ControlEffect) (e : TraceEvent) : (s.complete f e).out = { s.out with trace := s.out.trace ++ [e] } := rfl

/-! ### `endOfProgram` -/

@[simp] theorem State.endOfProgram_regs (s : State) : (s.endOfProgram).regs = s.regs := rfl
@[simp] theorem State.endOfProgram_mem (s : State) : (s.endOfProgram).mem = s.mem := rfl
@[simp] theorem State.endOfProgram_cell0 (s : State) : (s.endOfProgram).cell0 = s.cell0 := rfl
@[simp] theorem State.endOfProgram_prog (s : State) : (s.endOfProgram).prog = s.prog := rfl
@[simp] theorem State.endOfProgram_pc (s : State) : (s.endOfProgram).pc = s.pc := rfl
@[simp] theorem State.endOfProgram_status (s : State) : (s.endOfProgram).status = .halted := rfl
@[simp] theorem State.endOfProgram_cursor (s : State) : (s.endOfProgram).cursor = s.cursor := rfl
@[simp] theorem State.endOfProgram_refused (s : State) : (s.endOfProgram).refused = s.refused := rfl
@[simp] theorem State.endOfProgram_out (s : State) : (s.endOfProgram).out = s.out := rfl

/-! ### `withOut` -/

@[simp] theorem State.withOut_regs (s : State) (o : Outputs) : (s.withOut o).regs = s.regs := rfl
@[simp] theorem State.withOut_mem (s : State) (o : Outputs) : (s.withOut o).mem = s.mem := rfl
@[simp] theorem State.withOut_cell0 (s : State) (o : Outputs) : (s.withOut o).cell0 = s.cell0 := rfl
@[simp] theorem State.withOut_prog (s : State) (o : Outputs) : (s.withOut o).prog = s.prog := rfl
@[simp] theorem State.withOut_pc (s : State) (o : Outputs) : (s.withOut o).pc = s.pc := rfl
@[simp] theorem State.withOut_status (s : State) (o : Outputs) : (s.withOut o).status = s.status := rfl
@[simp] theorem State.withOut_cursor (s : State) (o : Outputs) : (s.withOut o).cursor = s.cursor := rfl
@[simp] theorem State.withOut_refused (s : State) (o : Outputs) : (s.withOut o).refused = s.refused := rfl
@[simp] theorem State.withOut_out (s : State) (o : Outputs) : (s.withOut o).out = o := rfl

/-! ### `beginLoad` -/

@[simp] theorem State.beginLoad_regs (s : State) (start : Int) : (s.beginLoad start).regs = s.regs := rfl
@[simp] theorem State.beginLoad_mem (s : State) (start : Int) : (s.beginLoad start).mem = s.mem := rfl
@[simp] theorem State.beginLoad_cell0 (s : State) (start : Int) : (s.beginLoad start).cell0 = s.cell0 := rfl
@[simp] theorem State.beginLoad_prog (s : State) (start : Int) : (s.beginLoad start).prog = s.prog := rfl
@[simp] theorem State.beginLoad_pc (s : State) (start : Int) : (s.beginLoad start).pc = s.pc := rfl
@[simp] theorem State.beginLoad_status (s : State) (start : Int) : (s.beginLoad start).status = s.status := rfl
@[simp] theorem State.beginLoad_cursor (s : State) (start : Int) : (s.beginLoad start).cursor = start := rfl
@[simp] theorem State.beginLoad_refused (s : State) (start : Int) : (s.beginLoad start).refused = s.refused := rfl
@[simp] theorem State.beginLoad_out (s : State) (start : Int) : (s.beginLoad start).out = { s.out with diags := [] } := rfl

/-! ### `beginRun` -/

@[simp] theorem State.beginRun_regs (s : State) (b : Bool) : (s.beginRun b).regs = s.regs := rfl
@[simp] theorem State.beginRun_mem (s : State) (b : Bool) : (s.beginRun b).mem = s.mem := rfl
@[simp] theorem State.beginRun_cell0 (s : State) (b : Bool) : (s.beginRun b).cell0 = s.cell0 := rfl
@[simp] theorem State.beginRun_prog (s : State) (b : Bool) : (s.beginRun b).prog = s.prog := rfl
@[simp] theorem State.beginRun_pc (s : State) (b : Bool) : (s.beginRun b).pc = if b then 0 else s.pc := rfl
@[simp] theorem State.beginRun_status (s : State) (b : Bool) : (s.beginRun b).status = .running := rfl
@[simp] theorem State.beginRun_cursor (s : State) (b : Bool) : (s.beginRun b).cursor = s.cursor := rfl
@[simp] theorem State.beginRun_refused (s : State) (b : Bool) : (s.beginRun b).refused = s.refused := rfl
@[simp] theorem State.beginRun_out (s : State) (b : Bool) : (s.beginRun b).out = { s.out with diags := [] } := rfl

/-! ### `memWrite` -/

@[simp] theorem memWrite_regs (s : State) (a : Int) (v : Byte) : (memWrite s a v).regs = s.regs := by
  unfold memWrite; split_ifs <;> rfl
@[simp] theorem memWrite_prog (s : State) (a : Int) (v : Byte) : (memWrite s a v).prog = s.prog := by
  unfold memWrite; split_ifs <;> rfl
@[simp] theorem memWrite_pc (s : State) (a : Int) (v : Byte) : (memWrite s a v).pc = s.pc := by
  unfold memWrite; split_ifs <;> rfl
@[simp] theorem memWrite_status (s : State) (a : Int) (v : Byte) : (memWrite s a v).status = s.status := by
  unfold memWrite; split_ifs <;> rfl
@[simp] theorem memWrite_cursor (s : State) (a : Int) (v : Byte) : (memWrite s a v).cursor = s.cursor := by
  unfold memWrite; split_ifs <;> rfl
@[simp] theorem memWrite_refused (s : State) (a : Int) (v : Byte) : (memWrite s a v).refused = s.refused := by
  unfold memWrite; split_ifs <;> rfl
@[simp] theorem memWrite_out (s : State) (a : Int) (v : Byte) : (memWrite s a v).out = s.out := by
  unfold memWrite; split_ifs <;> rfl

/-! ### `storeWord` -/

@[simp] theorem State.storeWord_regs (s : State) (i : Instr) (m : Byte × Byte) : (s.storeWord i m).regs = s.regs := by
  simp [State.storeWord]
@[simp] theorem State.storeWord_prog (s : State) (i : Instr) (m : Byte × Byte) : (s.storeWord i m).prog = s.prog ++ [i] := rfl
@[simp] theorem State.storeWord_pc (s : State) (i : Instr) (m : Byte × Byte) : (s.storeWord i m).pc = s.pc := by
  simp [State.storeWord]
@[simp] theorem State.storeWord_status (s : State) (i : Instr) (m : Byte × Byte) : (s.storeWord i m).status = s.status := by
  simp [State.storeWord]
@[simp] theorem State.storeWord_cursor (s : State) (i : Instr) (m : Byte × Byte) : (s.storeWord i m).cursor = s.cursor + 2 := rfl
@[simp] theorem State.storeWord_refused (s : State) (i : Instr) (m : Byte × Byte) : (s.storeWord i m).refused = s.refused := by
  simp [State.storeWord]
@[simp] theorem State.storeWord_out (s : State) (i : Instr) (m : Byte × Byte) : (s.storeWord i m).out = s.out := by
  simp [State.storeWord]

/-! ### Registers -/

@[simp] theorem State.reg_setReg_self (s : State) (r : Reg) (v : Byte) : (s.setReg r v).reg r = v := by
  simp [State.reg, State.setReg]

theorem State.reg_setReg (s : State) (r q : Reg) (v : Byte) :
    (s.setReg r v).reg q = if q = r then v else s.reg q := by
  by_cases h : q = r
  · simp [h]
  · have : (r : Nat) ≠ q := fun e => h (Fin.ext e.symm)
    simp [State.reg, State.setReg, h, this]

@[simp] theorem State.reg_complete (s : State) (f : ControlEffect) (e : TraceEvent) (q : Reg) :
    (s.complete f e).reg q = s.reg q := rfl

@[simp] theorem State.reg_raise (s : State) (d : Diagnostic) (q : Reg) : (s.raise d).reg q = s.reg q := rfl

@[simp] theorem State.reg_withOut (s : State) (o : Outputs) (q : Reg) : (s.withOut o).reg q = s.reg q := rfl

@[simp] theorem State.reg_memWrite (s : State) (a : Int) (v : Byte) (q : Reg) :
    (memWrite s a v).reg q = s.reg q := by
  simp [State.reg]

/-- Two states with the same registers agree on every `x[r]`. -/
theorem State.reg_congr {s t : State} (h : s.regs = t.regs) (q : Reg) : s.reg q = t.reg q := by
  simp [State.reg, h]

end Sys2Proof.Machine
end

