-- ==== Sys2Proof/Laws/Memory.lean ====
section
/-! SUPPORT. Data memory: what a read gives after a write (20_memory.md R52, R53), and the canonical form kept. -/
namespace Sys2Proof.Machine

/-! ### The list of cells -/

theorem Memory.read_erase_self (m : Memory) (a : Nat) : Memory.read (Memory.erase m a) a = Memory.unlisted := by
  induction m with
  | nil => rfl
  | cons c m ih =>
    obtain ⟨b, w⟩ := c
    by_cases h : b = a
    · simpa [Memory.erase, h] using ih
    · simpa [Memory.erase, Memory.read, h] using ih

theorem Memory.read_erase_ne (m : Memory) {a b : Nat} (h : b ≠ a) :
    Memory.read (Memory.erase m a) b = Memory.read m b := by
  induction m with
  | nil => rfl
  | cons c m ih =>
    obtain ⟨x, w⟩ := c
    by_cases hx : x = a
    · subst hx
      simpa [Memory.erase, Memory.read, Ne.symm h] using ih
    · simp only [Memory.erase, List.filter_cons, bne_iff_ne, ne_eq, hx, not_false_eq_true, if_true, Memory.read]
      split_ifs
      · rfl
      · exact ih

theorem Memory.read_insert_ne (m : Memory) {a b : Nat} (v : Byte) (h : b ≠ a) :
    Memory.read (Memory.insert m a v) b = Memory.read m b := by
  induction m with
  | nil => simp [Memory.insert, Memory.read, Ne.symm h]
  | cons c m ih =>
    obtain ⟨x, w⟩ := c
    unfold Memory.insert
    split_ifs
    · simp [Memory.read, Ne.symm h]
    · simp [Memory.read, ih]

theorem Memory.read_insert_self (m : Memory) (a : Nat) (v : Byte) (h : ∀ c ∈ m, c.1 ≠ a) :
    Memory.read (Memory.insert m a v) a = v := by
  induction m with
  | nil => simp [Memory.insert, Memory.read]
  | cons c m ih =>
    obtain ⟨x, w⟩ := c
    unfold Memory.insert
    split_ifs
    · simp [Memory.read]
    · have hx : x ≠ a := h (x, w) (by simp)
      simp [Memory.read, hx, ih fun c hc => h c (by simp [hc])]

theorem Memory.erase_ne (m : Memory) (a : Nat) : ∀ c ∈ Memory.erase m a, c.1 ≠ a := by
  intro c hc
  simpa using (List.mem_filter.mp hc).2

/-- A read after a write: the value written at the same cell, the old value at every other. -/
theorem Memory.read_write (m : Memory) (a b : Nat) (v : Byte) :
    Memory.read (Memory.write m a v) b = if b = a then v else Memory.read m b := by
  unfold Memory.write
  by_cases h : b = a
  · subst h
    rw [if_pos rfl]
    split_ifs with hv
    · exact (Memory.read_erase_self m b).trans hv.symm
    · exact Memory.read_insert_self _ _ _ (Memory.erase_ne m b)
  · split_ifs
    · exact Memory.read_erase_ne m h
    · exact (Memory.read_insert_ne _ _ h).trans (Memory.read_erase_ne m h)

/-! ### The canonical form -/

theorem Memory.wfFrom_mono {lo hi : Nat} (h : lo ≤ hi) {m : Memory} (hm : Memory.wfFrom hi m = true) :
    Memory.wfFrom lo m = true := by
  cases m with
  | nil => rfl
  | cons c m =>
    obtain ⟨a, v⟩ := c
    simp only [Memory.wfFrom, Bool.and_eq_true, decide_eq_true_eq] at hm ⊢
    exact ⟨⟨⟨by omega, hm.1.1.2⟩, hm.1.2⟩, hm.2⟩

theorem Memory.erase_wfFrom (m : Memory) (lo a : Nat) (hm : Memory.wfFrom lo m = true) :
    Memory.wfFrom lo (Memory.erase m a) = true := by
  induction m generalizing lo with
  | nil => rfl
  | cons c m ih =>
    obtain ⟨b, w⟩ := c
    simp only [Memory.wfFrom, Bool.and_eq_true, decide_eq_true_eq] at hm
    by_cases h : b = a
    · simpa [Memory.erase, h] using Memory.wfFrom_mono (by omega) (ih b hm.2)
    · have := ih b hm.2
      have he : Memory.erase ((b, w) :: m) a = (b, w) :: Memory.erase m a := by simp [Memory.erase, h]
      simp only [he, Memory.wfFrom, Bool.and_eq_true, decide_eq_true_eq]
      exact ⟨hm.1, this⟩

theorem Memory.insert_wfFrom (m : Memory) (lo a : Nat) (v : Byte) (hm : Memory.wfFrom lo m = true)
    (hlo : lo < a) (ha : a ≤ 255) (hv : v ≠ Memory.unlisted) (hne : ∀ c ∈ m, c.1 ≠ a) :
    Memory.wfFrom lo (Memory.insert m a v) = true := by
  induction m generalizing lo with
  | nil => simp [Memory.insert, Memory.wfFrom, hlo, ha, hv]
  | cons c m ih =>
    obtain ⟨b, w⟩ := c
    have hb : b ≠ a := hne (b, w) (by simp)
    simp only [Memory.wfFrom, Bool.and_eq_true, decide_eq_true_eq] at hm
    unfold Memory.insert
    split_ifs with hab
    · simp only [Memory.wfFrom, Bool.and_eq_true, decide_eq_true_eq, bne_iff_ne, ne_eq]
      exact ⟨⟨⟨hlo, ha⟩, hv⟩, ⟨⟨hab, hm.1.1.2⟩, by simpa using hm.1.2⟩, hm.2⟩
    · simp only [Memory.wfFrom, Bool.and_eq_true, decide_eq_true_eq]
      exact ⟨hm.1, ih b hm.2 (by omega) fun c hc => hne c (by simp [hc])⟩

/-- A write to a cell of 1..255 keeps the canonical form. -/
theorem Memory.write_wf (m : Memory) (a : Nat) (v : Byte) (hm : Memory.wf m = true) (h0 : 0 < a) (ha : a ≤ 255) :
    Memory.wf (Memory.write m a v) = true := by
  unfold Memory.write Memory.wf
  split_ifs with hv
  · exact Memory.erase_wfFrom m 0 a hm
  · exact Memory.insert_wfFrom _ 0 a v (Memory.erase_wfFrom m 0 a hm) h0 ha hv (Memory.erase_ne m a)

/-! ### `MemRead` and `MemWrite` -/

/-- A read depends on the memory and cell 0 alone. -/
theorem memRead_congr {s t : State} (hm : s.mem = t.mem) (hc : s.cell0 = t.cell0) (a : Int) :
    memRead s a = memRead t a := by
  simp [memRead, hm, hc]

@[simp] theorem memRead_setReg (s : State) (r : Reg) (v : Byte) (a : Int) : memRead (s.setReg r v) a = memRead s a := rfl
@[simp] theorem memRead_raise (s : State) (d : Diagnostic) (a : Int) : memRead (s.raise d) a = memRead s a := rfl
@[simp] theorem memRead_complete (s : State) (f : ControlEffect) (e : TraceEvent) (a : Int) :
    memRead (s.complete f e) a = memRead s a := rfl
@[simp] theorem memRead_endOfProgram (s : State) (a : Int) : memRead s.endOfProgram a = memRead s a := rfl
@[simp] theorem memRead_withOut (s : State) (o : Outputs) (a : Int) : memRead (s.withOut o) a = memRead s a := rfl

/-- MemRead after MemWrite (20_memory.md R52, R53): the byte written at the same address of 0..255, else what was there. -/
theorem memRead_memWrite (s : State) (a b : Int) (v : Byte) :
    memRead (memWrite s a v) b = if b = a ∧ 0 ≤ a ∧ a ≤ 255 then v else memRead s b := by
  by_cases hr : a < 0 ∨ 255 < a
  · have : ¬(b = a ∧ 0 ≤ a ∧ a ≤ 255) := by omega
    simp only [memWrite, if_pos hr, if_neg this]
  · by_cases h0 : a = 0
    · subst h0
      simp only [memWrite, memRead]
      split_ifs <;> first | rfl | omega
    · simp only [memWrite, if_neg hr, if_neg h0, memRead, Memory.read_write]
      split_ifs <;> first | rfl | omega

/-- MemWrite keeps the canonical form of memory. -/
theorem memWrite_mem_wf (s : State) (a : Int) (v : Byte) (hm : Memory.wf s.mem = true) :
    Memory.wf (memWrite s a v).mem = true := by
  unfold memWrite
  split_ifs with h h0
  · exact hm
  · exact hm
  · exact Memory.write_wf _ _ _ hm (by omega) (by omega)

/-- MemWrite keeps cell 0 well formed. -/
theorem memWrite_cell0_wf (s : State) (a : Int) (v : Byte) (hc : s.cell0.wf = true) :
    (memWrite s a v).cell0.wf = true := by
  unfold memWrite
  split_ifs <;> first | exact hc | rfl

/-- Away from address 0 MemWrite leaves cell 0 alone. -/
theorem memWrite_cell0_of_ne (s : State) (a : Int) (v : Byte) (h : a ≠ 0) : (memWrite s a v).cell0 = s.cell0 := by
  unfold memWrite
  split_ifs <;> rfl

/-- The memory after reset has the canonical form. -/
theorem reset_mem_wf : Memory.wf State.reset.mem = true := rfl

end Sys2Proof.Machine
end

