-- ==== Sys2Proof/Laws/Ops.lean ====
section
/-! SUPPORT. For each shared operation, once, everything it can do. -/
namespace Sys2Proof.Machine

/-! ### Operands -/

theorem directAddress_range (a : Byte) : 0 ≤ directAddress a ∧ directAddress a ≤ 255 := by
  have := a.isLt
  simp only [directAddress]
  omega

theorem directAddress_eq_zero {a : Byte} : directAddress a = 0 ↔ a = 0#8 := by
  simp [directAddress, BitVec.toNat_eq]

theorem directAddress_injective {a b : Byte} : directAddress a = directAddress b ↔ a = b := by
  simp [directAddress, BitVec.toNat_eq]

theorem isAccumulatorForm_iff {a : Byte} : isAccumulatorForm a = true ↔ a = 0#8 := by
  simp [isAccumulatorForm]

/-- `sext_8` is the two's-complement value. -/
theorem sext8_eq_toInt (b : Byte) : sext8 b = b.toInt := by
  have := b.isLt
  simp only [sext8, BitVec.toInt]
  split_ifs <;> omega

/-- `trunc_8` is the byte of an integer modulo 256. -/
theorem trunc8_eq_ofInt (n : Int) : trunc8 n = BitVec.ofInt 8 n := by
  apply BitVec.eq_of_toNat_eq
  simp only [trunc8, BitVec.toNat_ofNat, BitVec.toNat_ofInt]
  omega

/-! ### The accumulator -/

@[simp] theorem withinCapacity_none (n : Nat) : withinCapacity none n = true := rfl

@[simp] theorem withinCapacity_some (c n : Nat) : withinCapacity (some c) n = decide (n ≤ c) := rfl

@[simp] theorem Cell0.heldText_text (s : List Ascii) : Cell0.heldText (.text s) = s := rfl

@[simp] theorem Cell0.heldText_fresh : Cell0.heldText (.byte 0x00#8) = [] := rfl

/-- What an append does: nothing above 127; else it stores the held text and the code, or is past the capacity. -/
theorem accAppend_cases (cap : Option Nat) (b : Byte) (c : Cell0) :
    (127 < b.toNat ∧ accAppend cap b c = .outOfRange) ∨
    (b.toNat ≤ 127 ∧ withinCapacity cap (c.heldText.length + 1) = true ∧
      accAppend cap b c = .stored (.text (c.heldText ++ [b.setWidth 7]))) ∨
    (b.toNat ≤ 127 ∧ withinCapacity cap (c.heldText.length + 1) = false ∧ accAppend cap b c = .full) := by
  unfold accAppend
  by_cases h : 127 < b.toNat
  · exact .inl ⟨h, by simp [h]⟩
  · cases hw : withinCapacity cap (c.heldText.length + 1)
    · exact .inr (.inr ⟨by omega, rfl, by simp [h, hw]⟩)
    · exact .inr (.inl ⟨by omega, rfl, by simp [h, hw]⟩)

/-- In the model's own machine, whose accumulator is unbounded. -/
theorem accAppend_unbounded (b : Byte) (c : Cell0) :
    accAppend Config.accCapacity b c =
      if 127 < b.toNat then .outOfRange else .stored (.text (c.heldText ++ [b.setWidth 7])) := by
  unfold accAppend Config.accCapacity
  split_ifs <;> simp_all

/-! ### Control -/

@[simp] theorem advance_proceed (pc : Int) : advance pc .proceed = pc + 1 := rfl
@[simp] theorem advance_jumpTo (pc : Int) (t : Target) : advance pc (.jumpTo t) = t.val := rfl
@[simp] theorem advance_halt (pc : Int) : advance pc .halt = -1 := rfl

/-- The end of an instruction that continues, at a slot index: the next slot, and the status as it was. -/
theorem complete_proceed (s : State) (e : TraceEvent) (h : 0 ≤ s.pc) :
    s.complete .proceed e = { s with pc := s.pc + 1, out := { s.out with trace := s.out.trace ++ [e] } } := by
  have hn : ¬advance s.pc .proceed < 0 := by rw [advance_proceed]; omega
  rw [State.complete, if_neg hn]
  rfl

/-- The end of a taken jump: the target slot, and the status as it was. -/
theorem complete_jumpTo (s : State) (t : Target) (e : TraceEvent) :
    s.complete (.jumpTo t) e = { s with pc := t.val, out := { s.out with trace := s.out.trace ++ [e] } } := by
  have hn : ¬advance s.pc (.jumpTo t) < 0 := by rw [advance_jumpTo]; omega
  rw [State.complete, if_neg hn]
  rfl

/-- The end of a Halt. -/
theorem complete_halt (s : State) (e : TraceEvent) :
    s.complete .halt e =
      { s with pc := -1, status := .halted, out := { s.out with trace := s.out.trace ++ [e] } } := rfl

/-- Whatever ends an instruction, a negative pc comes with the status Halted (44_fetch_execute.md R204). -/
theorem complete_halted_of_neg (s : State) (f : ControlEffect) (e : TraceEvent) (h : (s.complete f e).pc < 0) :
    (s.complete f e).status = .halted :=
  if_pos h

/-- A fetch gives an instruction exactly where the pc is a slot of the store that holds it. -/
theorem fetch_eq_some {s : State} {i : Instr} : s.fetch = some i ↔ 0 ≤ s.pc ∧ s.prog[s.pc.toNat]? = some i := by
  unfold State.fetch
  split_ifs with h
  · simp; omega
  · simp; omega

/-- A fetch gives nothing exactly where the pc is out of bounds (44_fetch_execute.md R202). -/
theorem fetch_eq_none {s : State} : s.fetch = none ↔ s.pc < 0 ∨ (s.prog.length : Int) ≤ s.pc := by
  unfold State.fetch
  split_ifs with h
  · simp [h]
  · simp only [List.getElem?_eq_none_iff]
    omega

/-- Where a fetch gives an instruction, the pc is below the length of the store. -/
theorem pc_lt_of_fetch {s : State} {i : Instr} (h : s.fetch = some i) : 0 ≤ s.pc ∧ s.pc < s.prog.length := by
  have := mt fetch_eq_none.mpr (by simp [h] : ¬s.fetch = none)
  omega

end Sys2Proof.Machine
end

