-- ==== Sys2Proof/Laws/PerInstr.lean ====
section
/-! SUPPORT. The per-instruction families of LAWS.json: one lemma per constructor of `Instr`. -/

/-- The encoder writes an admitted word (30_encoding.md R81, R88, R96). -/
def Sys2Proof.Laws.EncodeAdmitted.Statement (i : Sys2Proof.Instr) : Prop :=
  Sys2Proof.WellFormed.word (Sys2Proof.encode i) = true

namespace Sys2Proof.Laws

/-- A word of four digits is admitted where its opcode is neither 4 nor B. -/
theorem admitted_of_digits (o r x y : Nibble) (ho : o.toNat ∈ [1, 2, 3, 5, 6, 12]) :
    WellFormed.word (o ++ r ++ x ++ y) = true := by
  have h4 : o ≠ 4#4 := by rintro rfl; simp at ho
  have hb : o ≠ 11#4 := by rintro rfl; simp at ho
  simp only [List.mem_cons, List.not_mem_nil, or_false] at ho
  unfold WellFormed.word WellFormed.opcodeListed WellFormed.copyFieldZero WellFormed.targetDecimal
  rw [digits_op]
  rcases ho with h | h | h | h | h | h <;> simp [h, h4, hb]

theorem EncodeAdmitted.loadMem (r : Reg) (a : Byte) : EncodeAdmitted.Statement (.loadMem r a) := by
  unfold EncodeAdmitted.Statement
  rw [encode_loadMem]
  exact admitted_of_digits _ _ _ _ (by decide)

theorem EncodeAdmitted.loadImm (r : Reg) (v : Byte) : EncodeAdmitted.Statement (.loadImm r v) := by
  unfold EncodeAdmitted.Statement
  rw [encode_loadImm]
  exact admitted_of_digits _ _ _ _ (by decide)

theorem EncodeAdmitted.store (r : Reg) (a : Byte) : EncodeAdmitted.Statement (.store r a) := by
  unfold EncodeAdmitted.Statement
  rw [encode_store]
  exact admitted_of_digits _ _ _ _ (by decide)

theorem EncodeAdmitted.copy (d : Reg) : EncodeAdmitted.Statement (.copy d) := by
  revert d; unfold EncodeAdmitted.Statement; decide

theorem EncodeAdmitted.addInt (d s t : Reg) : EncodeAdmitted.Statement (.addInt d s t) :=
  admitted_of_digits _ _ _ _ (by decide)

theorem EncodeAdmitted.addFloat (d s t : Reg) : EncodeAdmitted.Statement (.addFloat d s t) :=
  admitted_of_digits _ _ _ _ (by decide)

theorem EncodeAdmitted.jumpEq (r : Reg) (t : Target) : EncodeAdmitted.Statement (.jumpEq r t) := by
  unfold EncodeAdmitted.Statement WellFormed.word WellFormed.opcodeListed WellFormed.copyFieldZero
    WellFormed.targetDecimal
  rw [encode_jumpEq, digits_op, digits_x, digits_y]
  have ht := t.isLt
  simp
  omega

theorem EncodeAdmitted.halt : EncodeAdmitted.Statement .halt := by
  unfold EncodeAdmitted.Statement; decide

end Sys2Proof.Laws
end

