-- ==== Sys2Proof/Laws/Step.lean ====
section
/-! SUPPORT. What a step and an execution can do, once. -/
namespace Sys2Proof.Machine

/-! ### The meanings -/

@[simp] theorem exec_loadMem (r : Reg) (a : Byte) (s : State) :
    exec (.loadMem r a) s =
      .next ((s.setReg r (memRead s (directAddress a))).complete .proceed (.regWritten r (memRead s (directAddress a)))) :=
  rfl

@[simp] theorem exec_loadImm (r : Reg) (v : Byte) (s : State) :
    exec (.loadImm r v) s = .next ((s.setReg r v).complete .proceed (.regWritten r v)) := rfl

@[simp] theorem exec_copy (d : Reg) (s : State) :
    exec (.copy d) s = .next ((s.setReg d (s.reg copySource)).complete .proceed (.regWritten d (s.reg copySource))) :=
  rfl

@[simp] theorem exec_addInt (d a b : Reg) (s : State) :
    exec (.addInt d a b) s =
      .next ((s.setReg d (trunc8 (sext8 (s.reg a) + sext8 (s.reg b)))).complete .proceed
        (.regWritten d (trunc8 (sext8 (s.reg a) + sext8 (s.reg b))))) := rfl

@[simp] theorem exec_addFloat (d a b : Reg) (s : State) :
    exec (.addFloat d a b) s =
      .next ((s.setReg d (f8EncodeInt (f8Scaled (s.reg a) + f8Scaled (s.reg b)))).complete .proceed
        (.regWritten d (f8EncodeInt (f8Scaled (s.reg a) + f8Scaled (s.reg b))))) := rfl

@[simp] theorem exec_halt (s : State) : exec .halt s = .next (s.complete .halt .halted) := rfl

theorem exec_jumpEq (r : Reg) (t : Target) (s : State) :
    exec (.jumpEq r t) s =
      if s.reg r = s.reg 0 then .next (s.complete (.jumpTo t) (.jumpTaken t))
      else .next (s.complete .proceed (.jumpNotTaken t)) := by
  simp [exec, execJumpEq, equalsComparand, comparand]

theorem exec_jumpEq_taken (r : Reg) (t : Target) (s : State) (h : s.reg r = s.reg 0) :
    exec (.jumpEq r t) s = .next (s.complete (.jumpTo t) (.jumpTaken t)) := by
  rw [exec_jumpEq, if_pos h]

theorem exec_jumpEq_notTaken (r : Reg) (t : Target) (s : State) (h : s.reg r ≠ s.reg 0) :
    exec (.jumpEq r t) s = .next (s.complete .proceed (.jumpNotTaken t)) := by
  rw [exec_jumpEq, if_neg h]

/-- StoreToMemory away from address 00. -/
theorem exec_store_memory (r : Reg) (a : Byte) (s : State) (h : a ≠ 0#8) :
    exec (.store r a) s = .next ((memWrite s (directAddress a) (s.reg r)).complete .proceed (.memWritten a (s.reg r))) := by
  simp [exec, execStore, execStoreWithin, isAccumulatorForm, h]

/-- StoreToMemory to address 00 with a code up to 127. -/
theorem exec_store_append (r : Reg) (s : State) (h : (s.reg r).toNat ≤ 127) :
    exec (.store r 0#8) s =
      .next (State.complete { s with cell0 := .text (s.cell0.heldText ++ [(s.reg r).setWidth 7]) } .proceed
        (.accAppended (s.reg r) true)) := by
  have : ¬127 < (s.reg r).toNat := by omega
  simp [exec, execStore, execStoreWithin, isAccumulatorForm, accAppend_unbounded, this]

/-- StoreToMemory to address 00 with a value above 127. -/
theorem exec_store_outOfRange (r : Reg) (s : State) (h : 127 < (s.reg r).toNat) :
    exec (.store r 0#8) s =
      .next ((s.raise (.outOfAsciiRange s.pc (s.reg r))).complete .proceed (.accAppended (s.reg r) false)) := by
  simp [exec, execStore, execStoreWithin, isAccumulatorForm, accAppend_unbounded, h]

/-- What StoreToMemory can do, whatever the accumulator's capacity: a byte store, an append, a diagnostic, a refusal. -/
theorem execStoreWithin_cases (cap : Option Nat) (r : Reg) (a : Byte) (s : State) :
    (a ≠ 0#8 ∧ execStoreWithin cap r a s =
      .next ((memWrite s (directAddress a) (s.reg r)).complete .proceed (.memWritten a (s.reg r)))) ∨
    (a = 0#8 ∧ (s.reg r).toNat ≤ 127 ∧ withinCapacity cap (s.cell0.heldText.length + 1) = true ∧
      execStoreWithin cap r a s = .next
        ({ s with cell0 := .text (s.cell0.heldText ++ [(s.reg r).setWidth 7]) }.complete .proceed
          (.accAppended (s.reg r) true))) ∨
    (a = 0#8 ∧ 127 < (s.reg r).toNat ∧ execStoreWithin cap r a s =
      .next ((s.raise (.outOfAsciiRange s.pc (s.reg r))).complete .proceed (.accAppended (s.reg r) false))) ∨
    (a = 0#8 ∧ (s.reg r).toNat ≤ 127 ∧ withinCapacity cap (s.cell0.heldText.length + 1) = false ∧
      execStoreWithin cap r a s = .refused .accumulatorFull) := by
  by_cases ha : a = 0#8
  · subst ha
    rcases accAppend_cases cap (s.reg r) s.cell0 with ⟨h, e⟩ | ⟨h, hw, e⟩ | ⟨h, hw, e⟩
    · exact .inr (.inr (.inl ⟨rfl, h, by simp [execStoreWithin, isAccumulatorForm, e]⟩))
    · exact .inr (.inl ⟨rfl, h, hw, by simp [execStoreWithin, isAccumulatorForm, e]⟩)
    · exact .inr (.inr (.inr ⟨rfl, h, hw, by simp [execStoreWithin, isAccumulatorForm, e]⟩))
  · exact .inl ⟨ha, by simp [execStoreWithin, isAccumulatorForm, ha]⟩

/-- Every instruction that answers a next state ends in `complete`, after an effect that leaves the pc, the program store,
the cursor, the refusal mark, the status and the trace. -/
theorem exec_cases {i : Instr} {s t : State} (h : exec i s = .next t) :
    ∃ (u : State) (f : ControlEffect) (e : TraceEvent), t = u.complete f e ∧ u.pc = s.pc ∧ u.prog = s.prog ∧
      u.cursor = s.cursor ∧ u.refused = s.refused ∧ u.status = s.status ∧ u.out.trace = s.out.trace := by
  cases i with
  | loadMem | loadImm | copy | addInt | addFloat | halt =>
    simp at h
    subst h
    exact ⟨_, _, _, rfl, rfl, rfl, rfl, rfl, rfl, rfl⟩
  | jumpEq r t =>
    rw [exec_jumpEq] at h
    split_ifs at h <;> cases h <;> exact ⟨_, _, _, rfl, rfl, rfl, rfl, rfl, rfl, rfl⟩
  | store r a =>
    by_cases ha : a = 0#8
    · subst ha
      by_cases hv : 127 < (s.reg r).toNat
      · rw [exec_store_outOfRange r s hv] at h
        cases h
        exact ⟨_, _, _, rfl, rfl, rfl, rfl, rfl, rfl, rfl⟩
      · rw [exec_store_append r s (by omega)] at h
        cases h
        exact ⟨_, _, _, rfl, rfl, rfl, rfl, rfl, rfl, rfl⟩
    · rw [exec_store_memory r a s ha] at h
      cases h
      exact ⟨_, _, _, rfl, by simp, by simp, by simp, by simp, by simp, by simp⟩

/-! ### The step -/

/-- What a step that answers a next state has done, whatever its `Exec`: an out-of-bounds fetch, or the execution of the
fetched instruction. -/
theorem stepWith_cases {execute : Instr → State → Host.Outcome State Fault Refusal} {s t : State}
    (h : stepWith execute s = .next t) :
    s.refused = none ∧ s.status = .running ∧
      ((s.fetch = none ∧ t = s.endOfProgram) ∨ ∃ i, s.fetch = some i ∧ execute i s = .next t) := by
  unfold stepWith at h
  split at h
  · cases h
  · rename_i hr
    refine ⟨hr, ?_⟩
    split at h
    · cases h
    · rename_i hs
      refine ⟨hs, ?_⟩
      split at h
      · rename_i hf
        cases h
        exact .inl ⟨hf, rfl⟩
      · rename_i i hf
        exact .inr ⟨i, hf, h⟩

/-- What a step that answers a next state has done: an out-of-bounds fetch, or the execution of the fetched instruction. -/
theorem step_cases {s t : State} (h : step s = .next t) :
    s.refused = none ∧ s.status = .running ∧
      ((s.fetch = none ∧ t = s.endOfProgram) ∨ ∃ i, s.fetch = some i ∧ exec i s = .next t) :=
  stepWith_cases h

/-- A step that exists and fetches an instruction executes it. -/
theorem stepWith_executes {execute : Instr → State → Host.Outcome State Fault Refusal} {s : State} {i : Instr}
    (hr : s.refused = none) (hs : s.status = .running) (hf : s.fetch = some i) : stepWith execute s = execute i s := by
  simp [stepWith, hr, hs, hf]

/-- A step that exists and fetches nothing ends the program. -/
theorem stepWith_endOfProgram {execute : Instr → State → Host.Outcome State Fault Refusal} {s : State}
    (hr : s.refused = none) (hs : s.status = .running) (hf : s.fetch = none) :
    stepWith execute s = .next s.endOfProgram := by
  simp [stepWith, hr, hs, hf]

end Sys2Proof.Machine
end

