-- ==== Sys2Proof/Laws/Run.lean ====
section
/-! SUPPORT. What the loop of RUN and the machine with a capacity can do. -/
namespace Sys2Proof.Machine

/-- How a run that ends has ended: after some steps, by a step that halts or by one that is refused. -/
theorem runLoopWith_cases {next : State → Host.Outcome State Fault Refusal} {fuel : Nat} {s t : State} {o : RunOutcome}
    (h : runLoopWith next fuel s = some (o, t)) :
    ∃ (k : Nat) (u : State), k < fuel ∧ stepsToWith next k s u ∧
      ((next u = .next t ∧ t.status = .halted ∧ o = .ran { reason := u.endReason, pc := t.pc, diags := t.out.diags }) ∨
       ∃ q, next u = .refused q ∧ o = .refused q ∧ t = u.markRefused q) := by
  induction fuel generalizing s with
  | zero => simp [runLoopWith] at h
  | succ fuel ih =>
    unfold runLoopWith at h
    split at h
    · rename_i v hv
      split at h
      · obtain ⟨k, u, hk, hu, hc⟩ := ih h
        exact ⟨k + 1, u, by omega, ⟨v, hv, hu⟩, hc⟩
      · rename_i hs
        cases h
        exact ⟨0, s, by omega, rfl, .inl ⟨hv, hs, rfl⟩⟩
    · rename_i q hq
      cases h
      exact ⟨0, s, by omega, rfl, .inr ⟨q, hq, rfl, rfl⟩⟩
    · cases h

/-- RUN of a machine that is not refused is the loop from its starting state. -/
theorem runOver_unrefused {next : State → Host.Outcome State Fault Refusal} (resetsPc : Bool) (fuel : Nat) {s : State}
    (h : s.refused = none) : runOver next resetsPc fuel s = runLoopWith next fuel (s.beginRun resetsPc) := by
  simp [runOver, h]

/-- Without a capacity, execution is that of the model's own machine. -/
@[simp] theorem execWithin_none (i : Instr) (s : State) : execWithin none i s = exec i s := by
  cases i <;> rfl

/-- A capacity changes nothing but StoreToMemory. -/
theorem execWithin_of_not_store (cap : Option Nat) {i : Instr} (h : ∀ r a, i ≠ .store r a) (s : State) :
    execWithin cap i s = exec i s := by
  cases i with
  | store r a => exact absurd rfl (h r a)
  | loadMem | loadImm | copy | addInt | addFloat | jumpEq | halt => rfl

end Sys2Proof.Machine
end

