-- ==== Sys2Proof/Tests/Slice0.lean ====
section
/-! SUPPORT. Tests. The words are written out from 30_encoding.md and the expected results from 95_test_vectors.md.
The `witness_` theorems show, for each statement of Obligations.lean with hypotheses, a state and operands that meet them;
O numbers are those of OBLIGATIONS.json. -/

namespace Sys2Proof.Tests
open Sys2Proof Sys2Proof.Machine

/-- A small running machine: `prog` loaded, the pc at slot `pc`, registers and memory as at reset. -/
def running (prog : List Instr) (pc : Int) : State :=
  { State.reset with prog := prog, pc := pc, status := .running }

/-- The same machine with registers x1, x2 and x10 set. -/
def withRegs (v1 v2 v10 : Byte) : State :=
  (((running [] 4).setReg 1 v1).setReg 2 v2).setReg 10 v10

/-- The next state of an outcome; a machine at reset where there is none. -/
def after (o : Host.Outcome State Fault Refusal) : State :=
  match o with
  | .next t => t
  | .fault _ => State.reset
  | .refused _ => State.reset

/-! ### Well-formedness refuses each ill-formed term -/

theorem test_unlisted_opcode_refused : WellFormed.opcodeListed 0x7123#16 = false := by decide
theorem test_copy_register_field_refused : WellFormed.copyFieldZero 0x4105#16 = false := by decide
theorem test_hex_target_refused :
    WellFormed.targetDecimal 0xB01A#16 = false ∧ WellFormed.targetDecimal 0xB0A1#16 = false := by decide
theorem test_word_refused :
    WellFormed.word 0x7123#16 = false ∧ WellFormed.word 0x4105#16 = false ∧ WellFormed.word 0xB01A#16 = false := by decide
/-- "XYZ" and "2005" with a fifth character. -/
theorem test_token_length_refused :
    WellFormed.tokenLength [0x58#8, 0x59#8, 0x5A#8] = false ∧
    WellFormed.tokenLength [0x32#8, 0x30#8, 0x30#8, 0x35#8, 0x35#8] = false := by decide
/-- "2G01" and "2a05". -/
theorem test_token_characters_refused :
    WellFormed.tokenUppercaseHex [0x32#8, 0x47#8, 0x30#8, 0x31#8] = false ∧
    WellFormed.tokenUppercaseHex [0x32#8, 0x61#8, 0x30#8, 0x35#8] = false := by decide
theorem test_token_refused :
    WellFormed.token [0x58#8, 0x59#8, 0x5A#8] = false ∧
    WellFormed.token [0x32#8, 0x47#8, 0x30#8, 0x31#8] = false := by decide
theorem test_word_accepted : WellFormed.word 0x2005#16 = true ∧ WellFormed.word 0xB099#16 = true := by decide

/-! ### Decoding, every constructor from a word written out bit by bit -/

theorem test_decode_loadMem : decodeTableWord 16 0b0001101000111111 = some (.loadMem 10 0x3F#8) := by decide
theorem test_decode_loadImm : decodeTableWord 16 0b0010000000000101 = some (.loadImm 0 0x05#8) := by decide
theorem test_decode_store : decodeTableWord 16 0b0011010011111111 = some (.store 4 0xFF#8) := by decide
theorem test_decode_copy : decodeTableWord 16 0b0100000011110011 = some (.copy 3) := by decide
theorem test_decode_addInt : decodeTableWord 16 0b0101111110101011 = some (.addInt 15 10 11) := by decide
theorem test_decode_addFloat : decodeTableWord 16 0b0110000000010010 = some (.addFloat 0 1 2) := by decide
theorem test_decode_jumpEq : decodeTableWord 16 0b1011000000010000 = some (.jumpEq 0 10) := by decide
theorem test_decode_halt : decodeTableWord 16 0b1100111111111111 = some .halt := by decide
theorem test_decode_refuses :
    decodeTableWord 16 0x7123 = none ∧ decodeTableWord 16 0x0000 = none ∧ decodeTableWord 16 0xD000 = none ∧
    decodeTableWord 16 0x4105 = none ∧ decodeTableWord 16 0xB01A = none := by decide

/-- 95_test_vectors.md 2.1, the skipped tokens: "XYZ", "20055", "7123", "0000", "D000", "c000", "ZZZZ", "2G01", "CXYZ". -/
theorem test_decode_skips :
    decodeToken [0x58#8, 0x59#8, 0x5A#8] = .skip .invalidInstructionLength ∧
    decodeToken [0x32#8, 0x30#8, 0x30#8, 0x35#8, 0x35#8] = .skip .invalidInstructionLength ∧
    decodeToken [0x37#8, 0x31#8, 0x32#8, 0x33#8] = .skip .invalidOpcode ∧
    decodeToken [0x30#8, 0x30#8, 0x30#8, 0x30#8] = .skip .invalidOpcode ∧
    decodeToken [0x44#8, 0x30#8, 0x30#8, 0x30#8] = .skip .invalidOpcode ∧
    decodeToken [0x63#8, 0x30#8, 0x30#8, 0x30#8] = .skip .invalidOpcode ∧
    decodeToken [0x5A#8, 0x5A#8, 0x5A#8, 0x5A#8] = .skip .invalidOpcode ∧
    decodeToken [0x32#8, 0x47#8, 0x30#8, 0x31#8] = .skip .invalidEncoding ∧
    decodeToken [0x43#8, 0x58#8, 0x59#8, 0x5A#8] = .skip .invalidEncoding := by decide

/-- 95_test_vectors.md 2.1, the refused tokens: "2a05", "B01A", "4105". -/
theorem test_decode_refuses_by_name :
    decodeToken [0x32#8, 0x61#8, 0x30#8, 0x35#8] = .refuse .lowercaseHexDigit ∧
    decodeToken [0x42#8, 0x30#8, 0x31#8, 0x41#8] = .refuse .jumpTargetNotDecimal ∧
    decodeToken [0x34#8, 0x31#8, 0x30#8, 0x35#8] = .refuse .copyRegFieldNonZero := by decide

/-- "0A" is 10 and back (95_test_vectors.md S1); one digit, a letter past F, and a lowercase digit are no byte. -/
theorem test_hex_byte :
    byteToHex 0x0A#8 = [0x30#8, 0x41#8] ∧ byteFromHex [0x30#8, 0x41#8] = .ok 0x0A#8 ∧
    byteFromHex [0x30#8] = .invalidEncoding ∧ byteFromHex [0x30#8, 0x47#8] = .invalidEncoding ∧
    byteFromHex [0x30#8, 0x61#8] = .lowercase := by decide

/-- " 2005\tC000\n" is two tokens. -/
theorem test_split_tokens :
    splitTokens [0x20#8, 0x32#8, 0x30#8, 0x30#8, 0x35#8, 0x09#8, 0x43#8, 0x30#8, 0x30#8, 0x30#8, 0x0A#8] =
      [[0x32#8, 0x30#8, 0x30#8, 0x35#8], [0x43#8, 0x30#8, 0x30#8, 0x30#8]] := by decide

/-! ### The instructions (95_test_vectors.md 2.2 to 2.6) -/

theorem test_loadMem_cell :
    (after (exec (.loadMem 3 0x20#8) { running [] 0 with mem := [(0x20, 0x5A#8)] })).reg 3 = 0x5A#8 := by decide
theorem test_loadMem_cell0 :
    (after (exec (.loadMem 14 0x00#8) { running [] 0 with cell0 := .byte 0x2F#8 })).reg 14 = 0x2F#8 := by decide
theorem test_loadImm : (after (exec (.loadImm 10 0x80#8) (running [] 0))).reg 10 = 0x80#8 := by decide
theorem test_store_top :
    (after (exec (.store 1 0xFF#8) (withRegs 0x99#8 0 0))).mem = [(0xFF, 0x99#8)] := by decide
/-- "A" in cell 0, then 0x7F appended; 0xFF appends nothing and raises the diagnostic with its slot. -/
theorem test_store_append :
    (after (exec (.store 1 0x00#8) { withRegs 0x7F#8 0 0 with cell0 := .text [0x41#7] })).cell0 =
      .text [0x41#7, 0x7F#7] ∧
    (after (exec (.store 1 0x00#8) { withRegs 0xFF#8 0 0 with cell0 := .text [0x41#7] })).cell0 = .text [0x41#7] ∧
    (after (exec (.store 1 0x00#8) (withRegs 0xFF#8 0 0))).out.diags = [.outOfAsciiRange 4 0xFF#8] ∧
    (after (exec (.store 1 0x00#8) (withRegs 0xFF#8 0 0))).pc = 5 := by decide
theorem test_copy :
    (after (exec (.copy 0) (withRegs 0 0 0x12#8))).reg 0 = 0x12#8 ∧
    (after (exec (.copy 10) (withRegs 0 0 0x12#8))).reg 10 = 0x12#8 := by decide
theorem test_addInt_wraps :
    (after (exec (.addInt 3 1 2) (withRegs 0x7F#8 0x01#8 0))).reg 3 = 0x80#8 ∧
    (after (exec (.addInt 3 1 2) (withRegs 0x80#8 0xFF#8 0))).reg 3 = 0x7F#8 ∧
    (after (exec (.addInt 3 1 2) (withRegs 0xC8#8 0x64#8 0))).reg 3 = 0x2C#8 := by decide
/-- "5111" and "5112": a source that is also the destination. -/
theorem test_addInt_aliases :
    (after (exec (.addInt 1 1 1) (withRegs 0x81#8 0 0))).reg 1 = 0x02#8 ∧
    (after (exec (.addInt 1 1 2) (withRegs 0x03#8 0x04#8 0))).reg 1 = 0x07#8 := by decide
/-- Exact, truncated toward zero, an exact zero, and both saturations. -/
theorem test_addFloat_values :
    (after (exec (.addFloat 3 1 2) (withRegs 0x40#8 0x48#8 0))).reg 3 = 0x54#8 ∧
    (after (exec (.addFloat 3 1 2) (withRegs 0xCF#8 0xCE#8 0))).reg 3 = 0xDE#8 ∧
    (after (exec (.addFloat 3 1 2) (withRegs 0x40#8 0xC0#8 0))).reg 3 = 0x00#8 ∧
    (after (exec (.addFloat 3 1 2) (withRegs 0x70#8 0x70#8 0))).reg 3 = 0x7F#8 ∧
    (after (exec (.addFloat 3 1 2) (withRegs 0x00#8 0x81#8 0))).reg 3 = 0x80#8 := by decide
theorem test_addFloat_alias : (after (exec (.addFloat 1 1 1) (withRegs 0x54#8 0 0))).reg 1 = 0x64#8 := by decide
theorem test_jumpEq_taken :
    (after (exec (.jumpEq 2 7) ((withRegs 0 0x09#8 0).setReg 0 0x09#8))).pc = 7 ∧
    (after (exec (.jumpEq 0 4) (running [] 4))).pc = 4 := by decide
theorem test_jumpEq_not_taken :
    (after (exec (.jumpEq 2 7) ((withRegs 0 0x09#8 0).setReg 0 0x08#8))).pc = 5 := by decide
theorem test_halt :
    (after (exec .halt (running [] 3))).pc = -1 ∧ (after (exec .halt (running [] 3))).status = .halted := by decide
theorem test_fetch_out_of_bounds :
    step (running [.halt] 1) = .next { running [.halt] 1 with status := .halted } := by rfl

/-! ### LOAD and RUN (95_test_vectors.md 2.7) -/

/-- LOAD(["2001","C000"], 0xFF): the writes past 0xFF are dropped. -/
theorem test_load_past_the_top :
    let r := load [[0x32#8, 0x30#8, 0x30#8, 0x31#8], [0x43#8, 0x30#8, 0x30#8, 0x30#8]] 0xFF State.reset
    r.1 = .loaded { diags := [], appended := 2, endedByHalt := true } ∧ r.2.mem = [(0xFF, 0x20#8)] ∧
      r.2.cursor = 0x103 ∧ r.2.prog = [.loadImm 0 0x01#8, .halt] ∧ r.2.pc = 0 := by decide

/-- LOAD(["2001","2a05"], 0) is refused. -/
theorem test_load_refused :
    (load [[0x32#8, 0x30#8, 0x30#8, 0x31#8], [0x32#8, 0x61#8, 0x30#8, 0x35#8]] 0 State.reset).1 =
      .refused .lowercaseHexDigit := by decide

/-- LOAD(["c000","2101","CXYZ","2202"], 0) skips tokens 0 and 2. -/
theorem test_load_skips :
    let r := load [[0x63#8, 0x30#8, 0x30#8, 0x30#8], [0x32#8, 0x31#8, 0x30#8, 0x31#8], [0x43#8, 0x58#8, 0x59#8, 0x5A#8],
      [0x32#8, 0x32#8, 0x30#8, 0x32#8]] 0 State.reset
    r.1 = .loaded { diags := [.atToken 0 [0x63#8, 0x30#8, 0x30#8, 0x30#8] .invalidOpcode,
      .atToken 2 [0x43#8, 0x58#8, 0x59#8, 0x5A#8] .invalidEncoding], appended := 2, endedByHalt := false } ∧
    r.2.prog = [.loadImm 1 0x01#8, .loadImm 2 0x02#8] := by decide

/-- The word of HALT placed at reset is the next instruction, and ends the run. -/
theorem test_withFetchWord_runs : (after (step (State.reset.withFetchWord 16 0xC000))).pc = -1 := by decide

/-! ### Witnesses: a state and operands that meet the hypotheses -/

/-- A machine with one instruction to execute. -/
abbrev one (i : Instr) : State := running [i] 0

theorem one_ready (i : Instr) : (one i).Ready := ⟨rfl, rfl⟩
theorem one_executes (i : Instr) : (one i).Executes i := ⟨one_ready i, rfl⟩
theorem one_inv (i : Instr) : (one i).Inv := ⟨rfl, rfl, .inr ⟨Int.le_refl 0, by simp [running]⟩⟩

/-- O3, O20: a state in the invariant whose step answers a next state, with each kind of end. -/
theorem witness_step_invariant :
    ((one .halt).Inv ∧ step (one .halt) = .next (after (exec .halt (one .halt)))) ∧
    ((one (.jumpEq 0 99)).Inv ∧ step (one (.jumpEq 0 99)) = .next (after (exec (.jumpEq 0 99) (one (.jumpEq 0 99))))) :=
  ⟨⟨one_inv _, rfl⟩, ⟨one_inv _, rfl⟩⟩

/-- O4, O49, O50, O51: a RUN that ends by Halt and one that ends out of bounds, from a state in the invariant. -/
theorem witness_run_ends :
    State.Inv (one .halt) ∧ (one .halt).refused = none ∧
    (runWith false 1 (one .halt)).map (fun x => x.1) = some (.ran { reason := .haltInstruction, pc := -1, diags := [] }) ∧
    (runWith false 2 (one (.jumpEq 0 99))).map (fun x => x.1) =
      some (.ran { reason := .endOfProgram, pc := 99, diags := [] }) ∧
    (runWith true 2 (one (.jumpEq 0 1))).map (fun x => x.1) =
      some (.ran { reason := .endOfProgram, pc := 1, diags := [] }) :=
  ⟨one_inv _, rfl, rfl, rfl, rfl⟩

/-- O7, O8: an admitted token. -/
theorem witness_admitted_token :
    decodeToken [0x42#8, 0x30#8, 0x39#8, 0x39#8] = .ok (.jumpEq 0 99) (0xB0#8, 0x99#8) ∧
    WellFormed.word 0xB099#16 = true ∧ wordToToken 0xB099#16 = [0x42#8, 0x30#8, 0x39#8, 0x39#8] := by decide

/-- O9: the register digits other than 0 of opcode 4, and the least and the greatest target of opcode B. -/
theorem witness_operand_digits :
    (0x1#4 ≠ 0x0#4 ∧ 0xF#4 ≠ 0x0#4) ∧
    ((0x0#4).toNat ≤ 9 ∧ ((0 : Target)).val = 10 * (0x0#4).toNat + (0x0#4).toNat) ∧
    ((0x9#4).toNat ≤ 9 ∧ ((99 : Target)).val = 10 * (0x9#4).toNat + (0x9#4).toNat) := by decide

/-- O10: tokens of no, three and five characters. -/
theorem witness_wrong_length :
    (([] : Token)).length ≠ 4 ∧ ([0x58#8, 0x59#8, 0x5A#8] : Token).length ≠ 4 ∧
    ([0x32#8, 0x30#8, 0x30#8, 0x35#8, 0x35#8] : Token).length ≠ 4 := by decide

/-- O11: `0`, `7`, `A`, `D` and `c` are no listed opcode. -/
theorem witness_unlisted_opcode :
    ∀ c ∈ [0x30#8, 0x37#8, 0x41#8, 0x44#8, 0x63#8],
      c ∉ [0x31#8, 0x32#8, 0x33#8, 0x34#8, 0x35#8, 0x36#8, 0x42#8, 0x43#8] := by decide

/-- O12, clause by clause: "2Ga1", "2a05", "4105", "B0A0" and "B00A". -/
theorem witness_malformed :
    opcodeKnown 0x2#4 = true ∧ opcodeKnown 0x4#4 = true ∧ opcodeKnown 0xB#4 = true ∧
    CharClass.other ∈ [classify 0x47#8, classify 0x61#8, classify 0x31#8] ∧
    CharClass.other ∉ [classify 0x61#8, classify 0x30#8, classify 0x35#8] ∧
    CharClass.lhex ∈ [classify 0x61#8, classify 0x30#8, classify 0x35#8] ∧
    classify 0x30#8 = .uhex 0x0#4 ∧ classify 0x31#8 = .uhex 0x1#4 ∧ classify 0x35#8 = .uhex 0x5#4 ∧
    classify 0x41#8 = .uhex 0xA#4 ∧ 0x1#4 ≠ 0x0#4 ∧ 9 < (0xA#4).toNat := by decide

/-- O15: a text with a token, whitespace and a token without whitespace. -/
theorem witness_tokens :
    [0x58#8] ∈ splitTokens [0x58#8, 0x20#8] ∧ isSpace 0x20#8 = true ∧ isSpace 0x09#8 = true ∧ isSpace 0x0D#8 = true ∧
    ([0x58#8] : List Byte) ≠ [] ∧ (∀ c ∈ [0x58#8, 0x08#8, 0x0E#8, 0x21#8], isSpace c = false) := by decide

/-- O17, O19, clause by clause: halted, refused, the pc at -1 and at the length, an instruction to execute, and a Halt. -/
theorem witness_step_cases :
    State.reset.status ≠ .running ∧
    ({ one .halt with refused := some .lowercaseHexDigit } : State).refused ≠ none ∧
    ((running [.halt] (-1)).Ready ∧ (running [.halt] (-1)).pc < 0) ∧
    ((running [.halt] 1).Ready ∧ ((running [.halt] 1).prog.length : Int) ≤ (running [.halt] 1).pc) ∧
    ((one .halt).Ready ∧ 0 ≤ (one .halt).pc ∧ (one .halt).prog[(one .halt).pc.toNat]? = some .halt ∧
      exec .halt (one .halt) = .next (after (exec .halt (one .halt))) ∧ (after (exec .halt (one .halt))).pc < 0) :=
  ⟨by decide, by decide, ⟨⟨rfl, rfl⟩, by decide⟩, ⟨⟨rfl, rfl⟩, by decide⟩, one_ready _, by decide, rfl, rfl, by decide⟩

/-- O18 and the results O27 to O34: a pc that is a slot index, and a next state of each instruction. -/
theorem witness_exec :
    0 ≤ (withRegs 1 2 3).pc ∧
    ∀ i ∈ [Instr.loadMem 1 0x20#8, .loadImm 1 0x05#8, .store 1 0x20#8, .copy 1, .addInt 1 1 2, .addFloat 1 1 2,
      .jumpEq 1 7, .jumpEq 0 7, .halt], exec i (withRegs 1 2 3) = .next (after (exec i (withRegs 1 2 3))) := by
  refine ⟨by decide, ?_⟩
  intro i hi
  simp only [List.mem_cons, List.not_mem_nil, or_false] at hi
  rcases hi with rfl | rfl | rfl | rfl | rfl | rfl | rfl | rfl | rfl <;> rfl

/-- O29, clause by clause: addresses 00, 01 and FF, and the register values on both sides of the ASCII bound. -/
theorem witness_store_clauses :
    (0x01#8 ≠ 0x00#8 ∧ 0xFF#8 ≠ 0x00#8) ∧
    ((withRegs 0x00#8 0 0).reg 1).toNat ≤ 127 ∧ ((withRegs 0x7F#8 0 0).reg 1).toNat ≤ 127 ∧
    127 < ((withRegs 0x80#8 0 0).reg 1).toNat ∧ 127 < ((withRegs 0xFF#8 0 0).reg 1).toNat := by decide

/-- O34: registers that are equal and not. -/
theorem witness_jump_clauses :
    (withRegs 0 0 0).reg 1 = (withRegs 0 0 0).reg 0 ∧ (withRegs 1 0 0).reg 1 ≠ (withRegs 1 0 0).reg 0 := by decide

/-- O21: a step to a next state, one that faults and one that is refused. -/
theorem witness_outputs :
    step (one .halt) = .next (after (exec .halt (one .halt))) ∧ step State.reset = .fault .notRunning ∧
    step { one .halt with refused := some .lowercaseHexDigit } = .refused (.machineRefused .lowercaseHexDigit) :=
  ⟨rfl, rfl, rfl⟩

/-- O22: an append out of range raises. -/
theorem witness_raises :
    let s := (one (.store 1 0x00#8)).setReg 1 0x80#8
    step s = .next (after (exec (.store 1 0x00#8) s)) ∧
    (after (exec (.store 1 0x00#8) s)).out.diags ≠ s.out.diags :=
  ⟨rfl, by decide⟩

/-- O23, O24: a store changes a cell; an append changes cell 0. -/
theorem witness_memory_changes :
    let s := (one (.store 1 0x01#8)).setReg 1 0x41#8
    let u := (one (.store 1 0x00#8)).setReg 1 0x41#8
    step s = .next (after (exec (.store 1 0x01#8) s)) ∧
    memRead (after (exec (.store 1 0x01#8) s)) 1 ≠ memRead s 1 ∧
    step u = .next (after (exec (.store 1 0x00#8) u)) ∧ (after (exec (.store 1 0x00#8) u)).cell0 ≠ u.cell0 :=
  ⟨rfl, by decide, rfl, by decide⟩

/-- O25, O26: a register that an instruction neither writes nor reads. -/
theorem witness_other_register :
    (Instr.addInt 1 2 3).dest ≠ some 0 ∧ (0 : Reg) ∉ (Instr.addInt 1 2 3).reads ∧
    (Instr.store 1 0x20#8).dest ≠ some 1 ∧ (1 : Reg) ∉ (Instr.copy 1).reads ∧
    exec (.addInt 1 2 3) State.reset = .next (after (exec (.addInt 1 2 3) State.reset)) :=
  ⟨by decide, by decide, by decide, by decide, rfl⟩

/-- O40, clause by clause: 16, -16 and values between 1/16 and its opposite. -/
theorem witness_saturates :
    (16 : ℚ) ≤ 16 ∧ (-16 : ℚ) ≤ -16 ∧ ((0 : ℚ) < 1 / 17 ∧ (1 : ℚ) / 17 < 1 / 16) ∧
    (-(1 / 16) < (-1 / 17 : ℚ) ∧ (-1 / 17 : ℚ) < 0) := by norm_num

/-- O41: the least magnitude in range, -1/16, and 31/3, which is truncated. -/
theorem witness_truncates :
    ((1 : ℚ) / 16 ≤ |-1 / 16| ∧ |(-1 / 16 : ℚ)| < 16 ∧ (2 : ℚ) ^ (-4 : ℤ) ≤ |-1 / 16| ∧
      |(-1 / 16 : ℚ)| < 2 ^ (-4 + 1 : ℤ)) ∧
    ((1 : ℚ) / 16 ≤ |31 / 3| ∧ |(31 / 3 : ℚ)| < 16 ∧ (2 : ℚ) ^ (3 : ℤ) ≤ |31 / 3| ∧
      |(31 / 3 : ℚ)| < 2 ^ (3 + 1 : ℤ)) := by
  norm_num [abs_of_pos, abs_of_neg]

/-- O39: two codes of one magnitude. -/
theorem witness_magnitudes : |f8Decode 0xC0#8| = |f8Decode 0x40#8| := by
  have hs : f8Sign 0xC0#8 = true ∧ f8Sign 0x40#8 = false := by decide
  have hf : f8Exponent 0xC0#8 = 4 ∧ f8Mantissa 0xC0#8 = 0 ∧ f8Exponent 0x40#8 = 4 ∧ f8Mantissa 0x40#8 = 0 := by decide
  simp [f8Decode, hs, hf]

/-- O42, O44: a LOAD that is accepted, with a skipped token, a Halt and a token behind it, and addresses outside. -/
theorem witness_loads :
    (load [[0x58#8], [0x43#8, 0x30#8, 0x30#8, 0x30#8], [0x58#8]] 16 State.reset).1 =
      .loaded { diags := [.atToken 0 [0x58#8] .invalidInstructionLength], appended := 1, endedByHalt := true } ∧
    (15 : Int) < 16 ∧ (16 : Int) + 2 * (1 : Nat) ≤ 18 ∧ (0 : Int) < 16 := by decide

/-- O45: an admitted token that is no Halt, one that is, and a store that the word fits exactly. -/
theorem witness_halt_ends_loading :
    decodeToken [0x32#8, 0x30#8, 0x30#8, 0x35#8] = .ok (.loadImm 0 0x05#8) (0x20#8, 0x05#8) ∧
    decodeToken [0x43#8, 0x30#8, 0x30#8, 0x30#8] = .ok .halt (0xC0#8, 0x00#8) ∧
    withinCapacity (some 1) (State.reset.prog.length + 1) = true ∧ withinCapacity none 1 = true := by decide

/-- O46, O47: a machine that is not refused and one that is; a refused token. -/
theorem witness_refusal :
    State.reset.refused = none ∧
    ({ State.reset with refused := some .lowercaseHexDigit } : State).refused = some .lowercaseHexDigit ∧
    decodeToken [0x32#8, 0x61#8, 0x30#8, 0x35#8] = .refuse .lowercaseHexDigit := by decide

/-- O48: a store at its bound; an accumulator at its bound and below it, with each content of cell 0 the spec gives a text,
and the bound 0 with a nonzero byte; and steps that are refused, by the mark and by the bound. -/
theorem witness_capacity :
    decodeToken [0x43#8, 0x30#8, 0x30#8, 0x30#8] = .ok .halt (0xC0#8, 0x00#8) ∧ 1 ≤ (one .halt).prog.length ∧
    accAppend (some 1) 0x7F#8 (.text [0x41#7]) = .full ∧
    accAppend (some 2) 0x7F#8 (.text [0x41#7]) = .stored (.text [0x41#7, 0x7F#7]) ∧
    accAppend (some 0) 0x7F#8 (.byte 0x00#8) = .full ∧ 0 ≤ (Cell0.heldText (.byte 0x2F#8)).length ∧
    (0x00#8 = 0x00#8 ∧ ((withRegs 0x7F#8 0 0).reg 1).toNat ≤ 127 ∧ 0 ≤ (Cell0.heldText (withRegs 0x7F#8 0 0).cell0).length) ∧
    stepWithin none { one .halt with refused := some .lowercaseHexDigit } =
      .refused (.machineRefused .lowercaseHexDigit) ∧
    stepWithin (some 0) (one (.store 1 0x00#8)) = .refused .accumulatorFull :=
  ⟨by decide, by decide, by decide, by decide, by decide, Nat.zero_le _, by decide, rfl, rfl⟩

/-- O52: a machine at a jump to its own slot. -/
theorem witness_self_jump :
    (one (.jumpEq 0 0)).Executes (.jumpEq 0 0) ∧ (one (.jumpEq 0 0)).pc = ((0 : Target)).val ∧
    (one (.jumpEq 0 0)).reg 0 = (one (.jumpEq 0 0)).reg 0 :=
  ⟨one_executes _, rfl, rfl⟩

/-- O53, O54: an empty program at slot 0, and a machine after a Halt. -/
theorem witness_second_run :
    State.reset.refused = none ∧ State.reset.prog = [] ∧ State.reset.pc = 0 ∧
    (after (exec .halt (one .halt))).refused = none ∧ (after (exec .halt (one .halt))).pc = -1 := by decide

/-- O56: an append at the bound 0 and below the bound 1, and the RUN of each: refused with the mark set, and ended by Halt. -/
theorem witness_bounded :
    let s := running [.store 1 0x00#8, .halt] 0
    s.Executes (.store 1 0x00#8) ∧ (s.reg 1).toNat ≤ 127 ∧ 0 ≤ (Cell0.heldText s.cell0).length ∧
    (Cell0.heldText s.cell0).length < 1 ∧ s.refused = none ∧
    runWithin (some 0) false 2 s =
      some (.refused .accumulatorFull, { s.beginRun false with refused := some .accCapacityExceeded }) ∧
    (runWithin (some 1) false 2 s).map (fun x => x.1) =
      some (.ran { reason := .haltInstruction, pc := -1, diags := [] }) :=
  ⟨⟨⟨rfl, rfl⟩, rfl⟩, by decide, by decide, by decide, rfl, rfl, rfl⟩

/-- O55: the least and the greatest address of a byte cell, one of them written. -/
theorem witness_snapshot :
    (1 ≤ 1 ∧ 1 ≤ 255) ∧ (1 ≤ 255 ∧ 255 ≤ 255) ∧
    Memory.read (snapshot { State.reset with mem := [(255, 0x99#8)] }).mem 255 = 0x99#8 := by decide

end Sys2Proof.Tests
end

/-! ## Proofs: encoding. Tokens that LOAD skips, and the text form of a byte (30_encoding.md R91, R92, R101) -/
namespace Sys2Proof.Encoding
open Sys2Proof Sys2Proof.Machine

/-! ### What LOAD does with a skipped token -/

/-- A skipped token raises its diagnostic, and loading goes on with the next token (45_loader_and_host.md R224). -/
theorem loadTokens_of_skip {tok : Token} {kind : DiagKind} (h : decodeToken tok = .skip kind) (cap : Option Nat)
    (k n : Nat) (rest : List Token) (s : State) :
    loadTokens cap k n (tok :: rest) s = loadTokens cap (k + 1) n rest (s.raise (.atToken k tok kind)) := by
  simp only [loadTokens, h]

/-! ### The two checks that come first (30_encoding.md R95) -/

theorem decodeToken_of_length_ne {tok : Token} (h : tok.length ≠ 4) :
    decodeToken tok = .skip .invalidInstructionLength := by
  unfold decodeToken
  split
  · exact absurd rfl h
  · rfl

/-- The characters of the listed opcode digits are the eight of the opcode map (30_encoding.md R88, R92). -/
theorem hexChar_mem_of_opcodeKnown {op : Nibble} (h : opcodeKnown op = true) :
    hexChar op ∈ [0x31#8, 0x32#8, 0x33#8, 0x34#8, 0x35#8, 0x36#8, 0x42#8, 0x43#8] := by
  revert op; decide

/-- A first character outside the opcode map is no hex digit, or the digit of an unlisted opcode; the other three
characters are not looked at. -/
theorem decodeToken_of_unlisted {c1 : Byte}
    (h : c1 ∉ [0x31#8, 0x32#8, 0x33#8, 0x34#8, 0x35#8, 0x36#8, 0x42#8, 0x43#8]) (c2 c3 c4 : Byte) :
    decodeToken [c1, c2, c3, c4] = .skip .invalidOpcode := by
  cases hc : classify c1 with
  | uhex op =>
    have hop : ¬opcodeKnown op = true := fun hk => h (eq_hexChar_of_classify hc ▸ hexChar_mem_of_opcodeKnown hk)
    simp only [decodeToken, decodeChars, hc, if_neg hop]
  | lhex => simp only [decodeToken, decodeChars, hc]
  | other => simp only [decodeToken, decodeChars, hc]

/-! ### The text form of a byte -/

/-- The characters that `hexChar` writes are of the class `UHEX` (30_encoding.md R87). -/
theorem hexChar_range (v : Nibble) :
    (0x30 ≤ (hexChar v).toNat ∧ (hexChar v).toNat ≤ 0x39) ∨ (0x41 ≤ (hexChar v).toNat ∧ (hexChar v).toNat ≤ 0x46) := by
  revert v; decide

theorem byteFromHex_hexChars (x y : Nibble) : byteFromHex [hexChar x, hexChar y] = .ok (x ++ y) := by
  simp only [byteFromHex, classify_hexChar]

theorem byteFromHex_byteToHex (b : Byte) : byteFromHex (byteToHex b) = .ok b := by
  rw [byteToHex, byteFromHex_hexChars, byte_of_digits]

theorem tokenUppercaseHex_byteToHex (b : Byte) : WellFormed.tokenUppercaseHex (byteToHex b) = true := by
  simp [WellFormed.tokenUppercaseHex, byteToHex, hexChar_range]

/-! ### The statements -/

/-- Settles O11: the first character decides the decoding, and LOAD treats the token as every skipped one. -/
theorem unlistedOpcodeIsSkipped : Obligations.UnlistedOpcodeIsSkipped := by
  intro c1 c2 c3 c4 cap k n rest s hc
  have hskip := decodeToken_of_unlisted hc c2 c3 c4
  exact ⟨hskip, loadTokens_of_skip hskip cap k n rest s⟩

/-- Settles O10: the length decides the decoding, and LOAD treats the token as every skipped one. -/
theorem wrongLengthIsSkipped : Obligations.WrongLengthIsSkipped := by
  intro tok cap k n rest s hlen
  have hskip := decodeToken_of_length_ne hlen
  exact ⟨hskip, loadTokens_of_skip hskip cap k n rest s⟩

/-- Settles O13, by the digits of the byte: each is read back from the character it is written as. -/
theorem hexTextOfAByte : Obligations.HexTextOfAByte :=
  fun b => ⟨byteFromHex_byteToHex b, rfl, tokenUppercaseHex_byteToHex b⟩

end Sys2Proof.Encoding

/-! ## Proofs: data transfer. LOADM, LOADI and STORE (41_data_transfer.md R140, R141, R142) -/
namespace Sys2Proof.DataTransfer
open Sys2Proof Sys2Proof.Machine

/-! ### Words whose operand is a byte (30_encoding.md R84) -/

/-- The binary form of `Decode` on a word of an opcode digit, a register digit and an operand byte. -/
theorem decodeWord_operand (o r : Nibble) (v : Byte) :
    decodeWord (o ++ r ++ v) = decodeDigits o r (v.extractLsb' 4 4) (v.extractLsb' 0 4) := by
  rw [operand_eq_digits, decodeWord_digits]

theorem decodeWord_loadMem (r : Reg) (a : Byte) :
    decodeWord (0x1#4 ++ regDigit r ++ a) = .ok (.loadMem r a) (0x1#4 ++ regDigit r, a) := by
  simp [decodeWord_operand, decodeDigits, byte_of_digits]

theorem decodeWord_loadImm (r : Reg) (v : Byte) :
    decodeWord (0x2#4 ++ regDigit r ++ v) = .ok (.loadImm r v) (0x2#4 ++ regDigit r, v) := by
  simp [decodeWord_operand, decodeDigits, byte_of_digits]

theorem decodeWord_store (r : Reg) (a : Byte) :
    decodeWord (0x3#4 ++ regDigit r ++ a) = .ok (.store r a) (0x3#4 ++ regDigit r, a) := by
  simp [decodeWord_operand, decodeDigits, byte_of_digits]

/-! ### What the effects of the data transfers leave -/

/-- The whole next state of an instruction that writes one register and continues. -/
theorem setReg_complete_proceed (s : State) (r : Reg) (v : Byte) (hpc : 0 ≤ s.pc) :
    (s.setReg r v).complete .proceed (.regWritten r v) =
      { s.setReg r v with
        pc := s.pc + 1
        out := { s.out with trace := s.out.trace ++ [.regWritten r v] } } :=
  complete_proceed (s.setReg r v) (.regWritten r v) hpc

/-- MemRead at an operand byte's address, which is never outside memory (20_memory.md R51, R52). -/
theorem memRead_directAddress (s : State) (a : Byte) :
    memRead s (directAddress a) = if a = 0x00#8 then s.cell0.read else Memory.read s.mem a.toNat := by
  have hin : ¬(directAddress a < 0 ∨ 255 < directAddress a) := by
    have := directAddress_range a
    omega
  simp only [memRead, if_neg hin, directAddress_eq_zero]
  rfl

/-- MemRead after MemWrite at an operand byte's address (20_memory.md R53). -/
theorem memRead_memWrite_directAddress (s : State) (a v : Byte) (b : Int) :
    memRead (memWrite s (directAddress a) v) b = if b = a.toNat then v else memRead s b := by
  rw [memRead_memWrite]
  simp only [directAddress_range a, and_true]
  rfl

/-- Away from address 0 MemWrite changes cells 1..255 at most. -/
theorem memWrite_eq_of_ne (s : State) {a : Int} (v : Byte) (h : a ≠ 0) :
    memWrite s a v = { s with mem := (memWrite s a v).mem } := by
  unfold memWrite
  split_ifs <;> rfl

/-- A value up to 127 is its own 7-bit code. -/
theorem toNat_setWidth_of_ascii {v : Byte} (h : v.toNat ≤ 127) : (v.setWidth 7).toNat = v.toNat := by
  rw [BitVec.toNat_setWidth]
  omega

/-! ### The clauses of StoreToMemory -/

/-- A store away from address 00: the byte at its address is replaced, and beside memory only the pc and the trace
change. -/
theorem exec_store_memory_result (r : Reg) (a : Byte) (s : State) (hpc : 0 ≤ s.pc) (ha : a ≠ 0x00#8) :
    ∃ t, exec (.store r a) s = .next t ∧
      (∀ b : Int, memRead t b = if b = a.toNat then s.reg r else memRead s b) ∧
      t = { s with
        mem := t.mem
        pc := s.pc + 1
        out := { s.out with trace := s.out.trace ++ [.memWritten a (s.reg r)] } } := by
  have haddr : directAddress a ≠ 0 := mt directAddress_eq_zero.mp ha
  refine ⟨_, exec_store_memory r a s ha, fun b => ?_, ?_⟩
  · rw [memRead_complete, memRead_memWrite_directAddress]
  · rw [memWrite_eq_of_ne s (s.reg r) haddr]
    exact complete_proceed _ _ hpc

/-- A store of a code to address 00: the code goes behind the held text. -/
theorem exec_store_append_result (r : Reg) (s : State) (hpc : 0 ≤ s.pc) (hv : (s.reg r).toNat ≤ 127) :
    exec (.store r 0x00#8) s = .next
      { s with
        cell0 := .text (s.cell0.heldText ++ [(s.reg r).setWidth 7])
        pc := s.pc + 1
        out := { s.out with trace := s.out.trace ++ [.accAppended (s.reg r) true] } } := by
  rw [exec_store_append r s hv, complete_proceed]
  exact hpc

/-- A store of a value above 127 to address 00: the diagnostic, and no cell changed. -/
theorem exec_store_outOfRange_result (r : Reg) (s : State) (hpc : 0 ≤ s.pc) (hv : 127 < (s.reg r).toNat) :
    exec (.store r 0x00#8) s = .next
      { s with
        pc := s.pc + 1
        out := {
          trace := s.out.trace ++ [.accAppended (s.reg r) false]
          diags := s.out.diags ++ [.outOfAsciiRange s.pc (s.reg r)] } } := by
  rw [exec_store_outOfRange r s hv, complete_proceed (s.raise _) _ hpc]
  rfl

/-! ### The statements -/

/-- Settles O29, clause by clause: the byte store, the append and the diagnostic. -/
theorem storeResult : Obligations.StoreResult := by
  intro r a s hpc
  refine ⟨decodeWord_store r a, exec_store_memory_result r a s hpc, ?append, ?outOfRange⟩
  case append =>
    rintro rfl hv
    exact ⟨(s.reg r).setWidth 7, toNat_setWidth_of_ascii hv, exec_store_append_result r s hpc hv⟩
  case outOfRange =>
    rintro rfl hv
    exact exec_store_outOfRange_result r s hpc hv

/-- Settles O27: the register takes what MemRead gives, and an operand byte addresses cell 0 or a byte cell. -/
theorem loadMemResult : Obligations.LoadMemResult := by
  intro r a s hpc
  refine ⟨decodeWord_loadMem r a, memRead s (directAddress a), memRead_directAddress s a, ?_⟩
  rw [exec_loadMem, setReg_complete_proceed s r _ hpc]

/-- Settles O28: the word is read back with its operand byte, which the register takes as it is. -/
theorem loadImmResult : Obligations.LoadImmResult := by
  intro r v s hpc
  refine ⟨decodeWord_loadImm r v, ?_⟩
  rw [exec_loadImm, setReg_complete_proceed s r v hpc]

end Sys2Proof.DataTransfer

/-! ## Proofs: arithmetic. ADD (42_arithmetic.md R160) -/
namespace Sys2Proof.Arithmetic
open Sys2Proof Sys2Proof.Machine

/-- The word of ADD carries its three registers as digits (30_encoding.md R84). -/
theorem decodeWord_addInt (d a b : Reg) :
    decodeWord (0x5#4 ++ regDigit d ++ regDigit a ++ regDigit b) =
      .ok (.addInt d a b) (0x5#4 ++ regDigit d, regDigit a ++ regDigit b) := by
  simp [decodeWord_digits, decodeDigits]

/-- `trunc_8` as a remainder (00_scope.md R8). -/
theorem toNat_trunc8 (n : Int) : ((trunc8 n).toNat : Int) = n % 256 := by
  simp only [trunc8, BitVec.toNat_ofNat]
  omega

/-- The byte ADD computes, from the signed readings of the two sources. -/
theorem toNat_trunc8_sext8_add (u v : Byte) :
    ((trunc8 (sext8 u + sext8 v)).toNat : Int) = (u.toInt + v.toInt) % 256 := by
  rw [toNat_trunc8, sext8_eq_toInt, sext8_eq_toInt]

/-- Settles O31: the sources are read in the old state, so the destination may be one of them. -/
theorem addResult : Obligations.AddResult := by
  intro d a b s hpc
  refine ⟨decodeWord_addInt d a b, trunc8 (sext8 (s.reg a) + sext8 (s.reg b)), toNat_trunc8_sext8_add _ _, ?_⟩
  rw [exec_addInt, DataTransfer.setReg_complete_proceed s d _ hpc]

end Sys2Proof.Arithmetic

/-! ## Proofs: control transfer. HALT (43_control_transfer.md R181) -/
namespace Sys2Proof.ControlTransfer
open Sys2Proof Sys2Proof.Machine

/-- The opcode digit alone decides HALT; the other three digits are ignored (30_encoding.md R98). -/
theorem decodeWord_halt (r x y : Nibble) :
    decodeWord (0xC#4 ++ r ++ x ++ y) = .ok .halt (0xC#4 ++ r, x ++ y) := by
  simp [decodeWord_digits, decodeDigits]

/-- The whole next state of HALT, from any pc: the status follows from the negative pc (44_fetch_execute.md R204). -/
theorem exec_halt_result (s : State) :
    exec .halt s = .next
      { s with
        pc := -1
        status := .halted
        out := { s.out with trace := s.out.trace ++ [.halted] } } := by
  rw [exec_halt, complete_halt]

/-- Settles O35: the word is read back whatever its ignored digits, and execution takes the pc to the Halt sentinel. -/
theorem haltResult : Obligations.HaltResult :=
  fun r x y s => ⟨decodeWord_halt r x y, exec_halt_result s⟩

end Sys2Proof.ControlTransfer

/-! ## Proofs: the step. What an execution can do, and what every step keeps (10_state.md, 44_fetch_execute.md) -/
namespace Sys2Proof.Execution
open Sys2Proof Sys2Proof.Machine

/-! ### What an execution can do -/

/-- The seven ways an instruction is executed at `s`, each with its next state. -/
inductive Executed (s : State) : Instr → State → Prop where
  | regWrite {i : Instr} (d : Reg) (v : Byte) (hd : i.dest = some d) :
      Executed s i ((s.setReg d v).complete .proceed (.regWritten d v))
  | byteStore (r : Reg) (a : Byte) (ha : a ≠ 0x00#8) :
      Executed s (.store r a)
        ((memWrite s (directAddress a) (s.reg r)).complete .proceed (.memWritten a (s.reg r)))
  | append {r : Reg} (hv : (s.reg r).toNat ≤ 127) :
      Executed s (.store r 0x00#8)
        (State.complete { s with cell0 := .text (s.cell0.heldText ++ [(s.reg r).setWidth 7]) } .proceed
          (.accAppended (s.reg r) true))
  | outOfRange {r : Reg} (hv : 127 < (s.reg r).toNat) :
      Executed s (.store r 0x00#8)
        ((s.raise (.outOfAsciiRange s.pc (s.reg r))).complete .proceed (.accAppended (s.reg r) false))
  | jumpTaken {r : Reg} (t : Target) (heq : s.reg r = s.reg 0) :
      Executed s (.jumpEq r t) (s.complete (.jumpTo t) (.jumpTaken t))
  | jumpNotTaken {r : Reg} (t : Target) (hne : s.reg r ≠ s.reg 0) :
      Executed s (.jumpEq r t) (s.complete .proceed (.jumpNotTaken t))
  | halt : Executed s .halt (s.complete .halt .halted)

/-- Every instruction is executed in one of the seven ways, in every state. -/
theorem exec_executed (i : Instr) (s : State) : ∃ t, exec i s = .next t ∧ Executed s i t := by
  cases i with
  | loadMem | loadImm | copy | addInt | addFloat => exact ⟨_, rfl, .regWrite _ _ rfl⟩
  | halt => exact ⟨_, rfl, .halt⟩
  | jumpEq r t =>
    by_cases h : s.reg r = s.reg 0
    · exact ⟨_, exec_jumpEq_taken r t s h, .jumpTaken t h⟩
    · exact ⟨_, exec_jumpEq_notTaken r t s h, .jumpNotTaken t h⟩
  | store r a =>
    by_cases ha : a = 0x00#8
    · subst ha
      by_cases hv : 127 < (s.reg r).toNat
      · exact ⟨_, exec_store_outOfRange r s hv, .outOfRange hv⟩
      · have hle : (s.reg r).toNat ≤ 127 := by omega
        exact ⟨_, exec_store_append r s hle, .append hle⟩
    · exact ⟨_, exec_store_memory r a s ha, .byteStore r a ha⟩

theorem executed_of_exec {i : Instr} {s t : State} (h : exec i s = .next t) : Executed s i t := by
  obtain ⟨u, hu, hex⟩ := exec_executed i s
  rw [hu] at h
  cases h
  exact hex

/-- What a step that answers a next state has done: an out-of-bounds fetch, or one of the seven executions. -/
theorem step_executed {s t : State} (h : step s = .next t) :
    (s.fetch = none ∧ t = s.endOfProgram) ∨ ∃ i, s.fetch = some i ∧ Executed s i t := by
  obtain ⟨-, -, hend | ⟨i, hf, hex⟩⟩ := step_cases h
  · exact .inl hend
  · exact .inr ⟨i, hf, executed_of_exec hex⟩

theorem step_of_ready {s : State} {i : Instr} (hready : s.Ready) (hf : s.fetch = some i) : step s = exec i s :=
  stepWith_executes hready.unrefused hready.running hf

theorem step_endOfProgram {s : State} (hready : s.Ready) (hf : s.fetch = none) : step s = .next s.endOfProgram :=
  stepWith_endOfProgram hready.unrefused hready.running hf

/-! ### The invariant (10_state.md R27, R32, R33) -/

/-- The pc that ends an instruction fetched from a slot is in range: the next slot, a target up to 99, or -1. -/
theorem complete_pcInRange {u : State} (f : ControlEffect) (e : TraceEvent) (h0 : 0 ≤ u.pc)
    (hlt : u.pc < u.prog.length) : (u.complete f e).pcInRange := by
  unfold State.pcInRange
  cases f with
  | proceed => simp only [State.complete_pc, advance_proceed, State.complete_prog]; omega
  | jumpTo t => simp only [State.complete_pc, advance_jumpTo, State.complete_prog]; omega
  | halt => exact .inl rfl

theorem complete_inv {u : State} (f : ControlEffect) (e : TraceEvent) (hmem : Memory.wf u.mem = true)
    (hcell0 : u.cell0.wf = true) (hpc : 0 ≤ u.pc ∧ u.pc < u.prog.length) : (u.complete f e).Inv :=
  ⟨hmem, hcell0, complete_pcInRange f e hpc.1 hpc.2⟩

theorem executed_inv {s t : State} {i : Instr} (hinv : s.Inv) (hf : s.fetch = some i) (h : Executed s i t) :
    t.Inv := by
  have hpc := pc_lt_of_fetch hf
  cases h with
  | regWrite | outOfRange | jumpTaken | jumpNotTaken | halt => exact complete_inv _ _ hinv.mem hinv.cell0 hpc
  | append => exact complete_inv _ _ hinv.mem (by simp [Cell0.wf]) hpc
  | byteStore =>
    exact complete_inv _ _ (memWrite_mem_wf _ _ _ hinv.mem) (memWrite_cell0_wf _ _ _ hinv.cell0) (by simpa using hpc)

/-- Settles O3: an out-of-bounds fetch changes the status alone, and every execution ends in range. -/
theorem stepKeepsInvariant : Obligations.StepKeepsInvariant := by
  intro s t hinv hstep
  rcases step_executed hstep with ⟨-, rfl⟩ | ⟨i, hf, hex⟩
  · exact ⟨hinv.mem, hinv.cell0, hinv.pc⟩
  · exact executed_inv hinv hf hex

theorem construct_inv (regInit : Vector Byte 16) : (State.construct regInit).Inv :=
  ⟨rfl, rfl, .inr ⟨le_rfl, by simp [State.construct]⟩⟩

/-- Settles O2: memory is empty, cell 0 a byte and the pc 0. -/
theorem invariantAtReset : Obligations.InvariantAtReset :=
  ⟨construct_inv, construct_inv _⟩

/-- Every address reads as 0x00 at construction: outside memory by R52, cell 0 and the unlisted cells by R38. -/
theorem memRead_construct (regInit : Vector Byte 16) (a : Int) : memRead (State.construct regInit) a = 0x00#8 := by
  unfold memRead
  split_ifs <;> rfl

/-- Settles O1, from the construction record and what a read gives there. -/
theorem constructionValues : Obligations.ConstructionValues :=
  fun regInit => ⟨fun _ => rfl, memRead_construct regInit, rfl, rfl, rfl, rfl, rfl, rfl⟩

/-! ### The step itself (44_fetch_execute.md R201, R202, R204) -/

theorem exec_halted_of_neg {i : Instr} {s t : State} (h : exec i s = .next t) (hneg : t.pc < 0) :
    t.status = .halted := by
  obtain ⟨u, f, e, rfl, -⟩ := exec_cases h
  exact complete_halted_of_neg u f e hneg

/-- Settles O17: a step that answers is Ready, and the fetch decides which of the two things it does. -/
theorem stepFetchesAndExecutes : Obligations.StepFetchesAndExecutes := by
  intro s
  refine ⟨?notReady, ?outOfBounds, ?executes⟩
  case notReady =>
    intro hnot t hstep
    obtain ⟨hr, hs, -⟩ := step_cases hstep
    rcases hnot with h | h
    · exact h hs
    · exact h hr
  case outOfBounds =>
    intro hs hr hpc
    exact step_endOfProgram ⟨hs, hr⟩ (fetch_eq_none.mpr hpc)
  case executes =>
    intro i hs hr h0 hslot
    exact ⟨step_of_ready ⟨hs, hr⟩ (fetch_eq_some.mpr ⟨h0, hslot⟩), fun t hex hneg => exec_halted_of_neg hex hneg⟩

/-- Settles O19: an out-of-bounds fetch answers, and so does every execution. -/
theorem stepIsTotal : Obligations.StepIsTotal := by
  intro s hready
  cases hf : s.fetch with
  | none => exact ⟨_, step_endOfProgram hready hf⟩
  | some i =>
    obtain ⟨t, ht, -⟩ := exec_executed i s
    exact ⟨t, (step_of_ready hready hf).trans ht⟩

/-- Settles O20: the effect of an instruction leaves all three, and its end and an out-of-bounds fetch do too. -/
theorem stepKeepsProgramCursorAndMark : Obligations.StepKeepsProgramCursorAndMark := by
  intro s t hstep
  obtain ⟨-, -, ⟨-, rfl⟩ | ⟨i, -, hex⟩⟩ := step_cases hstep
  · exact ⟨rfl, rfl, rfl⟩
  · obtain ⟨u, f, e, rfl, -, hprog, hcursor, hrefused, -⟩ := exec_cases hex
    exact ⟨hprog, hcursor, hrefused⟩

/-! ### Control (44_fetch_execute.md R203) -/

/-- The status that ends an instruction that continues, at a slot index. -/
theorem complete_proceed_status (u : State) (e : TraceEvent) (h : 0 ≤ u.pc) :
    (u.complete .proceed e).status = u.status := by
  rw [complete_proceed u e h]

/-- Settles O18: the seven executions, each with its row of the table of control effects. -/
theorem nextPcAndStatus : Obligations.NextPcAndStatus := by
  intro i s t h0 hex
  cases executed_of_exec hex with
  | halt => exact ⟨rfl, rfl⟩
  | jumpTaken target heq =>
    rw [complete_jumpTo]
    exact ⟨(if_pos heq).symm, rfl⟩
  | jumpNotTaken target hne => exact ⟨(if_neg hne).symm, complete_proceed_status s _ h0⟩
  | append => exact ⟨rfl, complete_proceed_status _ _ h0⟩
  | outOfRange => exact ⟨rfl, complete_proceed_status (s.raise _) _ h0⟩
  | byteStore r a ha =>
    have hs := complete_proceed_status (memWrite s (directAddress a) (s.reg r)) (.memWritten a (s.reg r))
      (by simpa using h0)
    exact ⟨by simp, hs.trans (memWrite_status _ _ _)⟩
  | regWrite d v hd =>
    have hs := complete_proceed_status (s.setReg d v) (.regWritten d v) h0
    cases i with
    | loadMem | loadImm | copy | addInt | addFloat => exact ⟨rfl, hs⟩
    | store | jumpEq | halt => cases hd

/-! ### Memory and cell 0 (20_memory.md R53, R56) -/

/-- Only a store to its own address changes what memory reads as. -/
theorem executed_memRead {s t : State} {i : Instr} {a : Int} (h : Executed s i t) (hne : memRead t a ≠ memRead s a) :
    ∃ (r : Reg) (b : Byte), i = .store r b ∧ a = b.toNat := by
  cases h with
  | regWrite | outOfRange | jumpTaken | jumpNotTaken | halt => exact absurd rfl hne
  | byteStore r b ha =>
    refine ⟨r, b, rfl, by_contra fun hab => hne ?_⟩
    rw [memRead_complete, DataTransfer.memRead_memWrite_directAddress, if_neg hab]
  | @append r hv =>
    refine ⟨r, 0x00#8, rfl, by_contra fun ha => hne ?_⟩
    have ha : a ≠ 0 := ha
    simp only [memRead, if_neg ha]
    rfl

/-- Settles O23: an out-of-bounds fetch changes no cell, and an execution only as a store. -/
theorem onlyAStoreChangesMemory : Obligations.OnlyAStoreChangesMemory := by
  intro s t a hstep hne
  rcases step_executed hstep with ⟨-, rfl⟩ | ⟨i, hf, hex⟩
  · exact absurd rfl hne
  · obtain ⟨r, b, rfl, hab⟩ := executed_memRead hex hne
    exact ⟨r, b, hf, hab⟩

/-- Cell 0 keeps its content, or a store to address 00 puts one code behind the held text. -/
theorem executed_cell0 {s t : State} {i : Instr} (h : Executed s i t) :
    t.cell0 = s.cell0 ∨ ∃ (r : Reg) (c : Ascii), i = .store r 0x00#8 ∧ c.toNat = (s.reg r).toNat ∧
      t.cell0 = .text (s.cell0.heldText ++ [c]) := by
  cases h with
  | regWrite | outOfRange | jumpTaken | jumpNotTaken | halt => exact .inl rfl
  | byteStore r a ha => exact .inl (memWrite_cell0_of_ne s _ _ (mt directAddress_eq_zero.mp ha))
  | @append r hv => exact .inr ⟨r, _, rfl, DataTransfer.toNat_setWidth_of_ascii hv, rfl⟩

/-- Settles O24: an out-of-bounds fetch leaves cell 0, and an execution leaves it or appends to its held text. -/
theorem accumulatorIsAppendOnly : Obligations.AccumulatorIsAppendOnly := by
  intro s t hstep
  rcases step_executed hstep with ⟨-, rfl⟩ | ⟨i, hf, hex⟩
  · exact .inl rfl
  · rcases executed_cell0 hex with hsame | ⟨r, c, rfl, hc, htext⟩
    · exact .inl hsame
    · exact .inr ⟨r, c, hf, hc, htext⟩

/-! ### The outputs (10_state.md R37, 60_exceptions.md R262) -/

/-- Settles O22: of the seven executions only the append out of range adds to the diagnostics. -/
theorem onlyAnAppendOutOfRangeRaises : Obligations.OnlyAnAppendOutOfRangeRaises := by
  intro s t hstep hne
  obtain ⟨-, hrunning, -⟩ := step_cases hstep
  rcases step_executed hstep with ⟨-, rfl⟩ | ⟨i, hf, hex⟩
  · exact absurd rfl hne
  · have h0 := (pc_lt_of_fetch hf).1
    cases hex with
    | regWrite | append | jumpTaken | jumpNotTaken | halt => exact absurd rfl hne
    | byteStore => exact absurd (by simp) hne
    | @outOfRange r hv =>
      exact ⟨r, hf, hv, rfl, fun _ => rfl, rfl, rfl, rfl,
        (complete_proceed_status (s.raise _) _ h0).trans hrunning⟩

theorem memWrite_withOut (s : State) (o : Outputs) (a : Int) (v : Byte) :
    memWrite (s.withOut o) a v = (memWrite s a v).withOut o := by
  unfold memWrite
  split_ifs <;> rfl

/-- `t` is reached from `s` by emitting one event and raising some diagnostics, and `x` is the same with the outputs `o`
before them. -/
def EmitsAlike (s t : State) (o : Outputs) (x : Host.Outcome State Fault Refusal) : Prop :=
  ∃ (e : TraceEvent) (raised : List Diagnostic),
    t.out = { trace := s.out.trace ++ [e], diags := s.out.diags ++ raised } ∧
    x = .next (t.withOut { trace := o.trace ++ [e], diags := o.diags ++ raised })

theorem emitsAlike_of_complete {s : State} (u : State) (f : ControlEffect) (e : TraceEvent) (o : Outputs)
    (hout : u.out = s.out) : EmitsAlike s (u.complete f e) o (.next ((u.withOut o).complete f e)) := by
  refine ⟨e, [], ?_, ?_⟩
  · simp [hout]
  · rw [List.append_nil]
    rfl

/-- An execution reads no output. -/
theorem exec_withOut {i : Instr} {s t : State} (o : Outputs) (h : exec i s = .next t) :
    EmitsAlike s t o (exec i (s.withOut o)) := by
  cases i with
  | loadMem | loadImm | copy | addInt | addFloat | halt =>
    cases h
    exact emitsAlike_of_complete _ _ _ o rfl
  | jumpEq r target =>
    by_cases heq : s.reg r = s.reg 0
    · rw [exec_jumpEq_taken r target s heq] at h
      cases h
      rw [exec_jumpEq_taken r target (s.withOut o) heq]
      exact emitsAlike_of_complete _ _ _ o rfl
    · rw [exec_jumpEq_notTaken r target s heq] at h
      cases h
      rw [exec_jumpEq_notTaken r target (s.withOut o) heq]
      exact emitsAlike_of_complete _ _ _ o rfl
  | store r a =>
    by_cases ha : a = 0x00#8
    · subst ha
      by_cases hv : 127 < (s.reg r).toNat
      · rw [exec_store_outOfRange r s hv] at h
        cases h
        rw [exec_store_outOfRange r (s.withOut o) hv]
        exact ⟨_, [_], rfl, rfl⟩
      · have hle : (s.reg r).toNat ≤ 127 := by omega
        rw [exec_store_append r s hle] at h
        cases h
        rw [exec_store_append r (s.withOut o) hle]
        exact emitsAlike_of_complete { s with cell0 := _ } _ _ o rfl
    · rw [exec_store_memory r a s ha] at h
      cases h
      rw [exec_store_memory r a _ ha, memWrite_withOut]
      exact emitsAlike_of_complete _ _ _ o (memWrite_out _ _ _)

/-- A step that gives no next state answers the same whatever the outputs: it reads the mark and the status alone. -/
theorem step_withOut_of_not_ready {s : State} (o : Outputs) (h : ¬s.Ready) : step (s.withOut o) = step s := by
  unfold step stepWith
  cases hr : s.refused with
  | some r => simp [hr]
  | none =>
    cases hs : s.status with
    | halted => simp [hr, hs]
    | running => exact absurd ⟨hs, hr⟩ h

/-- Settles O21: a Ready machine answers a next state, by a fetch and an execution that read no output; otherwise the
mark and the status decide. -/
theorem outputsAreNeverReadBack : Obligations.OutputsAreNeverReadBack := by
  intro s o
  by_cases hready : s.Ready
  case pos =>
    obtain ⟨t, hstep⟩ := stepIsTotal s hready
    have hready' : (s.withOut o).Ready := ⟨hready.running, hready.unrefused⟩
    refine ⟨?_, fun f hf => ?_, fun r hr => ?_⟩
    · rintro t' ht'
      cases hf : s.fetch with
      | none =>
        rw [step_endOfProgram hready hf] at ht'
        cases ht'
        refine ⟨[], [], rfl, by simp, ?_⟩
        rw [List.append_nil, List.append_nil]
        exact step_endOfProgram hready' hf
      | some i =>
        rw [step_of_ready hready hf] at ht'
        obtain ⟨e, raised, hout, hex⟩ := exec_withOut o ht'
        exact ⟨[e], raised, rfl, hout, (step_of_ready hready' hf).trans hex⟩
    · rw [hstep] at hf; cases hf
    · rw [hstep] at hr; cases hr
  case neg =>
    rw [step_withOut_of_not_ready o hready]
    refine ⟨fun t ht => ?_, fun _ hf => hf, fun _ hr => hr⟩
    obtain ⟨hr, hs, -⟩ := step_cases ht
    exact absurd ⟨hs, hr⟩ hready

/-! ### Registers written and read (10_state.md R24) -/

theorem reg_setReg_of_ne (s : State) {p q : Reg} (v : Byte) (h : p ≠ q) : (s.setReg q v).reg p = s.reg p := by
  rw [State.reg_setReg, if_neg h]

/-- Settles O25: of the seven executions only the register write touches the registers, and only its destination. -/
theorem registersWritten : Obligations.RegistersWritten := by
  intro i s t q hex hq
  cases executed_of_exec hex with
  | append | outOfRange | jumpTaken | jumpNotTaken | halt => rfl
  | byteStore r a ha => rw [State.reg_complete, State.reg_memWrite]
  | regWrite d v hd =>
    have hne : q ≠ d := fun h => hq (h ▸ hd)
    rw [State.reg_complete, reg_setReg_of_ne s v hne]

theorem memWrite_setReg (s : State) (q : Reg) (v w : Byte) (a : Int) :
    memWrite (s.setReg q v) a w = (memWrite s a w).setReg q v := by
  unfold memWrite
  split_ifs <;> rfl

/-- The outcome `x` is `t` but for register `q`, which holds `v` unless it is the destination of `i`. -/
def AlikeBut (i : Instr) (q : Reg) (v : Byte) (t : State) (x : Host.Outcome State Fault Refusal) : Prop :=
  ∃ t', x = .next t' ∧ t' = { t with regs := t'.regs } ∧
    ∀ p : Reg, t'.reg p = if p = q ∧ i.dest ≠ some q then v else t.reg p

theorem alikeBut_of_regWrite {i : Instr} {d : Reg} (hd : i.dest = some d) (s : State) (q : Reg) (v w : Byte) :
    AlikeBut i q v ((s.setReg d w).complete .proceed (.regWritten d w))
      (.next (((s.setReg q v).setReg d w).complete .proceed (.regWritten d w))) := by
  refine ⟨_, rfl, rfl, fun p => ?_⟩
  simp only [State.reg_complete, State.reg_setReg, hd, ne_eq, Option.some.injEq]
  by_cases hpd : p = d
  · subst hpd
    rw [if_pos rfl, if_pos rfl, if_neg fun h => h.2 h.1]
  · rw [if_neg hpd, if_neg hpd]
    by_cases hpq : p = q
    · subst hpq
      rw [if_pos rfl, if_pos ⟨rfl, fun h => hpd h.symm⟩]
    · rw [if_neg hpq, if_neg fun h => hpq h.1]

theorem alikeBut_of_noWrite {i : Instr} (hd : i.dest = none) (u : State) (f : ControlEffect) (e : TraceEvent) (q : Reg)
    (v : Byte) : AlikeBut i q v (u.complete f e) (.next ((u.setReg q v).complete f e)) := by
  refine ⟨_, rfl, rfl, fun p => ?_⟩
  simp [State.reg_setReg, hd]

/-- Settles O26: each execution, with the values of the registers it reads as they were. -/
theorem registersRead : Obligations.RegistersRead := by
  intro i s t q v hex hq
  change AlikeBut i q v t (exec i (s.setReg q v))
  cases i with
  | loadMem | loadImm => cases hex; exact alikeBut_of_regWrite rfl s q v _
  | halt => cases hex; exact alikeBut_of_noWrite rfl s _ _ q v
  | copy d =>
    have h10 : copySource ≠ q := fun h => hq (by simp [Instr.reads, ← h, copySource])
    cases hex
    rw [exec_copy, reg_setReg_of_ne s v h10]
    exact alikeBut_of_regWrite rfl s q v _
  | addInt d a b | addFloat d a b =>
    have ha : a ≠ q := fun h => hq (by simp [Instr.reads, h])
    have hb : b ≠ q := fun h => hq (by simp [Instr.reads, h])
    cases hex
    simp only [exec_addInt, exec_addFloat, reg_setReg_of_ne s v ha, reg_setReg_of_ne s v hb]
    exact alikeBut_of_regWrite rfl s q v _
  | jumpEq r target =>
    have hr : r ≠ q := fun h => hq (by simp [Instr.reads, h])
    have h0 : 0 ≠ q := fun h => hq (by simp [Instr.reads, h])
    rw [exec_jumpEq] at hex ⊢
    rw [reg_setReg_of_ne s v hr, reg_setReg_of_ne s v h0]
    split_ifs at hex ⊢ <;> cases hex <;> exact alikeBut_of_noWrite rfl s _ _ q v
  | store r a =>
    have hr : (s.setReg q v).reg r = s.reg r := reg_setReg_of_ne s v fun h => hq (by simp [Instr.reads, h])
    cases executed_of_exec hex with
    | regWrite _ _ hd => cases hd
    | byteStore _ _ ha =>
      rw [exec_store_memory r a _ ha, hr, memWrite_setReg]
      exact alikeBut_of_noWrite rfl _ _ _ q v
    | append hv =>
      rw [exec_store_append r _ (hr ▸ hv), hr]
      exact alikeBut_of_noWrite rfl { s with cell0 := _ } _ _ q v
    | outOfRange hv =>
      rw [exec_store_outOfRange r _ (hr ▸ hv), hr]
      exact alikeBut_of_noWrite rfl (s.raise _) _ _ q v

/-! ### COPY and JEQ (41_data_transfer.md R143, 43_control_transfer.md R180) -/

theorem decodeWord_copy (d : Reg) (x : Nibble) :
    decodeWord (0x4#4 ++ 0x0#4 ++ x ++ regDigit d) = .ok (.copy d) (0x4#4 ++ 0x0#4, x ++ regDigit d) := by
  rw [decodeWord_digits]
  simp [decodeDigits]

/-- Settles O30: the word is read back whatever its ignored digit, and the destination takes x10. -/
theorem copyResult : Obligations.CopyResult := by
  intro d x s hpc
  refine ⟨decodeWord_copy d x, ?_⟩
  rw [exec_copy, DataTransfer.setReg_complete_proceed s d _ hpc]
  rfl

/-- The two decimal digits of a target are read back as the target (30_encoding.md R85). -/
theorem decimalTarget_digits (t : Target) :
    decimalTarget (BitVec.ofNat 4 (t.val / 10)) (BitVec.ofNat 4 (t.val % 10)) = some t := by
  have ht := t.isLt
  have htens : (BitVec.ofNat 4 (t.val / 10)).toNat = t.val / 10 := by rw [BitVec.toNat_ofNat]; omega
  have hones : (BitVec.ofNat 4 (t.val % 10)).toNat = t.val % 10 := by rw [BitVec.toNat_ofNat]; omega
  have hdec : (BitVec.ofNat 4 (t.val / 10)).toNat ≤ 9 ∧ (BitVec.ofNat 4 (t.val % 10)).toNat ≤ 9 := by omega
  rw [decimalTarget, dif_pos hdec]
  congr 1
  apply Fin.ext
  simp only [htens, hones]
  omega

theorem decodeWord_jumpEq (r : Reg) (t : Target) :
    decodeWord (0xB#4 ++ regDigit r ++ BitVec.ofNat 4 (t.val / 10) ++ BitVec.ofNat 4 (t.val % 10)) =
      .ok (.jumpEq r t) (0xB#4 ++ regDigit r, BitVec.ofNat 4 (t.val / 10) ++ BitVec.ofNat 4 (t.val % 10)) := by
  rw [decodeWord_digits]
  simp [decodeDigits, decimalTarget_digits]

/-- Settles O34: with r = 0 the comparand is compared with itself. -/
theorem jumpResult : Obligations.JumpResult := by
  intro r t s hpc
  refine ⟨decodeWord_jumpEq r t, fun h => ?taken, fun hne => ?notTaken⟩
  case taken =>
    have heq : s.reg r = s.reg 0 := h.elim (fun hr => hr ▸ rfl) id
    rw [exec_jumpEq_taken r t s heq, complete_jumpTo]
  case notTaken => rw [exec_jumpEq_notTaken r t s hne, complete_proceed s _ hpc]

end Sys2Proof.Execution

/-! ## Proofs: LOAD (45_loader_and_host.md section 2) -/
namespace Sys2Proof.Loading
open Sys2Proof Sys2Proof.Machine

/-! ### The loop of LOAD, token by token (45_loader_and_host.md R223 to R229) -/

theorem loadTokens_nil (cap : Option Nat) (k n : Nat) (s : State) :
    loadTokens cap k n [] s = s.endLoad n false := rfl

theorem loadTokens_of_refuse {tok : Token} {reason : RefuseReason} (h : decodeToken tok = .refuse reason)
    (cap : Option Nat) (k n : Nat) (rest : List Token) (s : State) :
    loadTokens cap k n (tok :: rest) s = s.refuseLoad reason := by
  simp only [loadTokens, h]

theorem loadTokens_of_full {cap : Option Nat} {tok : Token} {i : Instr} {img : Byte × Byte} {s : State}
    (h : decodeToken tok = .ok i img) (hcap : withinCapacity cap (s.prog.length + 1) = false) (k n : Nat)
    (rest : List Token) : loadTokens cap k n (tok :: rest) s = s.refuseLoad .progCapacityExceeded := by
  simp [loadTokens, h, hcap]

theorem loadTokens_of_ok {cap : Option Nat} {tok : Token} {i : Instr} {img : Byte × Byte} {s : State}
    (h : decodeToken tok = .ok i img) (hcap : withinCapacity cap (s.prog.length + 1) = true) (k n : Nat)
    (rest : List Token) :
    loadTokens cap k n (tok :: rest) s =
      if i = .halt then (s.storeWord i img).endLoad (n + 1) true
      else loadTokens cap (k + 1) (n + 1) rest (s.storeWord i img) := by
  simp [loadTokens, h, hcap]

/-- The four ways of a token: it is skipped, refused, past the capacity, or stored. -/
theorem token_cases (cap : Option Nat) (tok : Token) (s : State) :
    (∃ kind, decodeToken tok = .skip kind) ∨ (∃ reason, decodeToken tok = .refuse reason) ∨
    (∃ i img, decodeToken tok = .ok i img ∧ withinCapacity cap (s.prog.length + 1) = false) ∨
    ∃ i img, decodeToken tok = .ok i img ∧ withinCapacity cap (s.prog.length + 1) = true := by
  cases decodeToken tok with
  | skip kind => exact .inl ⟨kind, rfl⟩
  | refuse reason => exact .inr (.inl ⟨reason, rfl⟩)
  | ok i img =>
    cases withinCapacity cap (s.prog.length + 1) with
    | false => exact .inr (.inr (.inl ⟨i, img, rfl, rfl⟩))
    | true => exact .inr (.inr (.inr ⟨i, img, rfl, rfl⟩))

/-- What every piece of LOAD keeps, LOAD keeps, whatever its outcome. -/
theorem loadTokens_keeps {P : State → Prop} (hraise : ∀ s d, P s → P (s.raise d))
    (hstore : ∀ s i img, P s → P (s.storeWord i img)) (hend : ∀ s, P s → P { s with pc := 0 })
    (hrefuse : ∀ s r, P s → P { s with refused := some r }) (cap : Option Nat) (tokens : List Token) :
    ∀ (k n : Nat) (s : State), P s → P (loadTokens cap k n tokens s).2 := by
  induction tokens with
  | nil => exact fun k n s hs => hend s hs
  | cons tok rest ih =>
    intro k n s hs
    rcases token_cases cap tok s with ⟨kind, h⟩ | ⟨reason, h⟩ | ⟨i, img, h, hcap⟩ | ⟨i, img, h, hcap⟩
    · rw [Encoding.loadTokens_of_skip h]
      exact ih _ _ _ (hraise s _ hs)
    · rw [loadTokens_of_refuse h]
      exact hrefuse s _ hs
    · rw [loadTokens_of_full h hcap]
      exact hrefuse s _ hs
    · rw [loadTokens_of_ok h hcap]
      split_ifs
      · exact hend _ (hstore s i img hs)
      · exact ih _ _ _ (hstore s i img hs)

theorem load_unrefused (tokens : List Token) (start : Int) {s : State} (h : s.refused = none) :
    load tokens start s = loadTokens none 0 0 tokens (s.beginLoad start) := by
  simp [load, loadWithin, Config.progCapacity, h]

theorem load_refused (tokens : List Token) (start : Int) {s : State} {reason : RefuseReason}
    (h : s.refused = some reason) : load tokens start s = (.refused reason, s) := by
  simp [load, loadWithin, h]

/-! ### The invariant -/

theorem storeWord_inv {s : State} (i : Instr) (img : Byte × Byte) (h : s.Inv) : (s.storeWord i img).Inv := by
  refine ⟨memWrite_mem_wf _ _ _ (memWrite_mem_wf _ _ _ h.mem),
    memWrite_cell0_wf _ _ _ (memWrite_cell0_wf _ _ _ h.cell0), ?_⟩
  have hpc : s.pcInRange := h.pc
  simp only [State.pcInRange, State.storeWord_pc, State.storeWord_prog, List.length_append,
    List.length_singleton] at hpc ⊢
  omega

/-- LOAD keeps the invariant, since each of its pieces does. -/
theorem load_inv (tokens : List Token) (start : Int) {s : State} (h : s.Inv) : (load tokens start s).2.Inv := by
  cases hr : s.refused with
  | some reason => rwa [load_refused tokens start hr]
  | none =>
    rw [load_unrefused tokens start hr]
    exact loadTokens_keeps (P := State.Inv) (fun s d h => ⟨h.mem, h.cell0, h.pc⟩)
      (fun s i img h => storeWord_inv i img h) (fun s h => ⟨h.mem, h.cell0, .inr ⟨le_rfl, by simp⟩⟩) (fun s r h => ⟨h.mem, h.cell0, h.pc⟩)
      none tokens 0 0 _ ⟨h.mem, h.cell0, h.pc⟩

/-! ### The memory image (45_loader_and_host.md R225, R227) -/

/-- Settles O43: two writes, the second at the next address, so neither undoes the other. -/
theorem storedWordImage : Obligations.StoredWordImage := by
  intro s i img a
  change memRead (memWrite (memWrite s s.cursor img.1) (s.cursor + 1) img.2) a = _
  rw [memRead_memWrite, memRead_memWrite]
  by_cases hout : a < 0 ∨ 255 < a
  · rw [if_pos hout, if_neg (by omega), if_neg (by omega)]
    exact if_pos hout
  · rw [if_neg hout]
    by_cases hfst : a = s.cursor
    · rw [if_pos hfst, if_neg (by omega), if_pos (by omega)]
    · by_cases hsnd : a = s.cursor + 1
      · rw [if_neg hfst, if_pos hsnd, if_pos (by omega)]
      · rw [if_neg hfst, if_neg hsnd, if_neg (by omega), if_neg (by omega)]

/-- Cell 0 changes only where one of the two image bytes is at address 0. -/
theorem storeWord_cell0 (s : State) (i : Instr) (img : Byte × Byte) (h0 : s.cursor ≠ 0) (h1 : s.cursor + 1 ≠ 0) :
    (s.storeWord i img).cell0 = s.cell0 :=
  (memWrite_cell0_of_ne _ _ _ h1).trans (memWrite_cell0_of_ne _ _ _ h0)

/-- `t` differs from `s` in data memory only from the cursor of `s` up to that of `t`. -/
structure ImageWritten (s t : State) : Prop where
  cursor : s.cursor ≤ t.cursor
  memRead : ∀ a : Int, a < s.cursor ∨ t.cursor ≤ a → memRead t a = memRead s a
  cell0 : 0 < s.cursor ∨ t.cursor ≤ 0 → t.cell0 = s.cell0

theorem ImageWritten.storeWord {s t : State} (i : Instr) (img : Byte × Byte) (h : ImageWritten s t) :
    ImageWritten s (t.storeWord i img) := by
  have hcursor := h.cursor
  refine ⟨by rw [State.storeWord_cursor]; omega, fun a ha => ?_, fun h0 => ?_⟩
  · rw [State.storeWord_cursor] at ha
    rw [storedWordImage t i img a, if_neg (by omega : ¬a = t.cursor), if_neg (by omega : ¬a = t.cursor + 1),
      ← h.memRead a (by omega), ite_eq_right_iff]
    exact fun hout => (if_pos hout).symm
  · rw [State.storeWord_cursor] at h0
    rw [storeWord_cell0 t i img (by omega) (by omega), h.cell0 (by omega)]

/-- LOAD writes from its start address up to where its cursor ends. -/
theorem loadTokens_imageWritten (cap : Option Nat) (k n : Nat) (tokens : List Token) (s : State) :
    ImageWritten s (loadTokens cap k n tokens s).2 :=
  loadTokens_keeps (P := ImageWritten s) (fun _ _ h => ⟨h.cursor, h.memRead, h.cell0⟩)
    (fun _ i img h => h.storeWord i img) (fun _ h => ⟨h.cursor, h.memRead, h.cell0⟩)
    (fun _ _ h => ⟨h.cursor, h.memRead, h.cell0⟩) cap tokens k n s ⟨le_rfl, fun _ _ => rfl, fun _ => rfl⟩

/-! ### What an accepted LOAD does (45_loader_and_host.md R223 to R228) -/

/-- From `s` a LOAD that is accepted with the report `rep` ends in `t`; it consumed `consumed`, whose first token has
the index `k`, with `n` instructions appended before them, and left `rest`. -/
structure Loaded (k n : Nat) (consumed rest : List Token) (s : State) (rep : LoadReport) (t : State) : Prop where
  diags : rep.diags = s.out.diags ++ (consumed.zipIdx k).filterMap fun c => tokenDiagnostic c.1 c.2
  unrefused : ∀ tok ∈ consumed, ∀ reason, decodeToken tok ≠ .refuse reason
  rest_nil : rest ≠ [] → rep.endedByHalt = true
  halt_last : rep.endedByHalt = true ↔ (consumed.filterMap tokenInstr).getLast? = some .halt
  halt_only_last : Instr.halt ∉ (consumed.filterMap tokenInstr).dropLast
  appended : rep.appended = n + (consumed.filterMap tokenInstr).length
  prog : t.prog = s.prog ++ consumed.filterMap tokenInstr
  cursor : t.cursor = s.cursor + 2 * (consumed.filterMap tokenInstr).length
  pc : t.pc = 0
  regs : t.regs = s.regs
  status : t.status = s.status
  refused : t.refused = s.refused
  trace : t.out.trace = s.out.trace

theorem Loaded.nil (k n : Nat) (s : State) :
    Loaded k n [] [] s { diags := s.out.diags, appended := n, endedByHalt := false } { s with pc := 0 } where
  diags := by simp
  unrefused := by simp
  rest_nil := by simp
  halt_last := by simp
  halt_only_last := by simp
  appended := by simp
  prog := by simp
  cursor := by simp
  pc := rfl
  regs := rfl
  status := rfl
  refused := rfl
  trace := rfl

section
variable {k n : Nat} {tok : Token} {consumed rest : List Token} {s t : State} {rep : LoadReport}

theorem tokenInstr_of_skip {kind : DiagKind} (h : decodeToken tok = .skip kind) : tokenInstr tok = none := by
  simp only [tokenInstr, h]

theorem tokenInstr_of_ok {i : Instr} {img : Byte × Byte} (h : decodeToken tok = .ok i img) :
    tokenInstr tok = some i := by
  simp only [tokenInstr, h]

theorem tokenDiagnostic_of_skip {kind : DiagKind} (h : decodeToken tok = .skip kind) (index : Nat) :
    tokenDiagnostic tok index = some (.atToken index tok kind) := by
  simp only [tokenDiagnostic, h]

theorem tokenDiagnostic_of_ok {i : Instr} {img : Byte × Byte} (h : decodeToken tok = .ok i img) (index : Nat) :
    tokenDiagnostic tok index = none := by
  simp only [tokenDiagnostic, h]

/-- A skipped token in front adds its diagnostic and nothing else. -/
theorem Loaded.skip {kind : DiagKind} (h : decodeToken tok = .skip kind)
    (hload : Loaded (k + 1) n consumed rest (s.raise (.atToken k tok kind)) rep t) :
    Loaded k n (tok :: consumed) rest s rep t := by
  have hinstrs : (tok :: consumed).filterMap tokenInstr = consumed.filterMap tokenInstr :=
    List.filterMap_cons_none (tokenInstr_of_skip h)
  exact {
    diags := by simp [hload.diags, tokenDiagnostic_of_skip h]
    unrefused := List.forall_mem_cons.mpr ⟨by simp [h], hload.unrefused⟩
    rest_nil := hload.rest_nil
    halt_last := hinstrs ▸ hload.halt_last
    halt_only_last := hinstrs ▸ hload.halt_only_last
    appended := hinstrs ▸ hload.appended
    prog := hinstrs ▸ hload.prog
    cursor := hinstrs ▸ hload.cursor
    pc := hload.pc
    regs := hload.regs
    status := hload.status
    refused := hload.refused
    trace := hload.trace }

/-- A stored word in front, no Halt, adds its instruction, moves the cursor by 2, and reports nothing. -/
theorem Loaded.store {i : Instr} {img : Byte × Byte} (h : decodeToken tok = .ok i img) (hi : i ≠ .halt)
    (hload : Loaded (k + 1) (n + 1) consumed rest (s.storeWord i img) rep t) :
    Loaded k n (tok :: consumed) rest s rep t := by
  have hinstrs : (tok :: consumed).filterMap tokenInstr = i :: consumed.filterMap tokenInstr :=
    List.filterMap_cons_some (tokenInstr_of_ok h)
  have hlast := hload.halt_last
  have honly := hload.halt_only_last
  exact {
    diags := by simp [hload.diags, tokenDiagnostic_of_ok h]
    unrefused := List.forall_mem_cons.mpr ⟨by simp [h], hload.unrefused⟩
    rest_nil := hload.rest_nil
    halt_last := by
      rw [hinstrs, hlast]
      cases consumed.filterMap tokenInstr with
      | nil => simp [hi]
      | cons j js => rw [List.getLast?_cons_cons]
    halt_only_last := by
      rw [hinstrs]
      cases hjs : consumed.filterMap tokenInstr with
      | nil => simp
      | cons j js =>
        rw [hjs] at honly
        simp [List.dropLast_cons_cons, hi.symm, honly]
    appended := by rw [hload.appended, hinstrs, List.length_cons]; omega
    prog := by rw [hload.prog, hinstrs, State.storeWord_prog, List.append_assoc, List.singleton_append]
    cursor := by rw [hload.cursor, hinstrs, State.storeWord_cursor, List.length_cons]; omega
    pc := hload.pc
    regs := by rw [hload.regs, State.storeWord_regs]
    status := by rw [hload.status, State.storeWord_status]
    refused := by rw [hload.refused, State.storeWord_refused]
    trace := by rw [hload.trace, State.storeWord_out] }

/-- A Halt is stored and ends the LOAD, whatever is behind it. -/
theorem Loaded.halt {img : Byte × Byte} (h : decodeToken tok = .ok .halt img) :
    Loaded k n [tok] rest s
      { diags := (s.storeWord .halt img).out.diags, appended := n + 1, endedByHalt := true }
      { s.storeWord .halt img with pc := 0 } := by
  have hinstrs : [tok].filterMap tokenInstr = [.halt] := List.filterMap_cons_some (tokenInstr_of_ok h)
  exact {
    diags := by simp [tokenDiagnostic_of_ok h]
    unrefused := by simp [h]
    rest_nil := fun _ => rfl
    halt_last := by simp [hinstrs]
    halt_only_last := by simp [hinstrs]
    appended := by simp [hinstrs]
    prog := by simp [hinstrs]
    cursor := by simp [hinstrs]
    pc := rfl
    regs := by simp
    status := by simp
    refused := by simp
    trace := by simp }

end

/-- An accepted LOAD has consumed a first part of its tokens and done with it what they say. -/
theorem loadTokens_loaded (cap : Option Nat) {tokens : List Token} {k n : Nat} {s t : State} {rep : LoadReport}
    (h : loadTokens cap k n tokens s = (.loaded rep, t)) :
    ∃ consumed rest, tokens = consumed ++ rest ∧ Loaded k n consumed rest s rep t := by
  induction tokens generalizing k n s with
  | nil =>
    cases h
    exact ⟨[], [], rfl, .nil k n s⟩
  | cons tok tokens ih =>
    rcases token_cases cap tok s with ⟨kind, hd⟩ | ⟨reason, hd⟩ | ⟨i, img, hd, hcap⟩ | ⟨i, img, hd, hcap⟩
    · rw [Encoding.loadTokens_of_skip hd] at h
      obtain ⟨consumed, rest, rfl, hload⟩ := ih h
      exact ⟨tok :: consumed, rest, rfl, hload.skip hd⟩
    · rw [loadTokens_of_refuse hd] at h
      cases h
    · rw [loadTokens_of_full hd hcap] at h
      cases h
    · rw [loadTokens_of_ok hd hcap] at h
      split_ifs at h with hi
      · subst hi
        cases h
        exact ⟨[tok], tokens, rfl, .halt hd⟩
      · obtain ⟨consumed, rest, rfl, hload⟩ := ih h
        exact ⟨tok :: consumed, rest, rfl, hload.store hd hi⟩

theorem load_loaded {tokens : List Token} {start : Int} {s t : State} {rep : LoadReport}
    (h : load tokens start s = (.loaded rep, t)) : s.refused = none ∧
    loadTokens none 0 0 tokens (s.beginLoad start) = (.loaded rep, t) := by
  cases hr : s.refused with
  | some reason =>
    rw [load_refused tokens start hr] at h
    cases h
  | none => exact ⟨rfl, load_unrefused tokens start hr ▸ h⟩

/-- Settles O42: the loop from the state in which LOAD meets its first token. -/
theorem loadDoesWhatItsTokensSay : Obligations.LoadDoesWhatItsTokensSay := by
  intro tokens start s t rep h
  obtain ⟨hr, hloop⟩ := load_loaded h
  obtain ⟨consumed, rest, rfl, hload⟩ := loadTokens_loaded none hloop
  have happ : rep.appended = (consumed.filterMap tokenInstr).length := by simpa using hload.appended
  exact ⟨consumed, rest, _, rfl, rfl, hload.diags, hload.unrefused, hload.rest_nil, hload.halt_last,
    hload.halt_only_last, happ, hload.prog, happ ▸ hload.cursor, hload.pc, hload.regs, hload.status,
    hload.refused.trans hr, hload.trace⟩

/-- Settles O44: LOAD writes between its start address and the end of its cursor, which is 2 further for each word. -/
theorem loadMemoryFrame : Obligations.LoadMemoryFrame := by
  intro tokens start s t rep a h hout
  obtain ⟨-, hloop⟩ := load_loaded h
  have himage : ImageWritten (s.beginLoad start) t := by
    simpa only [hloop] using loadTokens_imageWritten none 0 0 tokens (s.beginLoad start)
  have hcursor : t.cursor = start + 2 * rep.appended := by
    obtain ⟨_, _, -, hload⟩ := loadTokens_loaded none hloop
    rw [hload.cursor, hload.appended, State.beginLoad_cursor]
    omega
  refine ⟨himage.memRead a (hcursor ▸ hout), fun ha => himage.cell0 ?_⟩
  rw [hcursor, State.beginLoad_cursor]
  omega

/-! ### The ends of LOAD (45_loader_and_host.md R226, R229) -/

/-- The tokens behind a Halt make no difference, wherever the loop comes to it. -/
theorem loadTokens_append_halt (cap : Option Nat) (rest : List Token) {tok : Token} {img : Byte × Byte}
    (h : decodeToken tok = .ok .halt img) (before : List Token) : ∀ (k n : Nat) (s : State),
    loadTokens cap k n (before ++ tok :: rest) s = loadTokens cap k n (before ++ [tok]) s := by
  induction before with
  | nil =>
    intro k n s
    simp only [List.nil_append, loadTokens, h, if_true]
  | cons first before ih =>
    intro k n s
    simp only [List.cons_append, loadTokens, ih]

/-- Settles O45: one token at the head, and an induction over the tokens before the Halt. -/
theorem haltEndsLoading : Obligations.HaltEndsLoading := by
  intro cap k n s
  refine ⟨?stored, fun before rest tok img h => loadTokens_append_halt cap rest h before k n s, rfl⟩
  case stored =>
    intro tok rest i img h hcap
    refine ⟨rfl, ?_⟩
    rw [loadTokens_of_ok h hcap]
    simp only [State.endLoad, State.storeWord_out]

/-- Settles O46: the loop ends at once. -/
theorem emptyLoad : Obligations.EmptyLoad := by
  intro start s h
  rw [load_unrefused [] start h, loadTokens_nil]
  rfl

theorem run_refused (fuel : Nat) {s : State} {reason : RefuseReason} (h : s.refused = some reason) :
    run fuel s = some (.refused (.machineRefused reason), s) := by
  simp [run, runWith, runOver, h]

theorem step_refused {s : State} {reason : RefuseReason} (h : s.refused = some reason) :
    step s = .refused (.machineRefused reason) := by
  simp [step, stepWith, h]

/-- Settles O47: the mark is looked at first by LOAD, RUN and the step. -/
theorem refusalIsForGood : Obligations.RefusalIsForGood := by
  refine ⟨fun cap k n tok rest s reason h => loadTokens_of_refuse h cap k n rest s, fun s reason h => ?_⟩
  exact ⟨fun tokens start => load_refused tokens start h, fun fuel => run_refused fuel h, step_refused h⟩

end Sys2Proof.Loading

/-! ## Proofs: a bounded accumulator (20_memory.md R57, 92_eei_decisions.md D18) -/
namespace Sys2Proof.Capacity
open Sys2Proof Sys2Proof.Machine

/-- An append is past the bound exactly where it would store a code and the held text fills the bound. -/
theorem accAppend_full_iff (c : Nat) (b : Byte) (x : Cell0) :
    accAppend (some c) b x = .full ↔ b.toNat ≤ 127 ∧ c ≤ x.heldText.length := by
  rcases accAppend_cases (some c) b x with ⟨hb, h⟩ | ⟨hb, hcap, h⟩ | ⟨hb, hcap, h⟩
  · simp only [h, reduceCtorEq, false_iff]
    omega
  · simp only [withinCapacity_some, decide_eq_true_eq] at hcap
    simp only [h, reduceCtorEq, false_iff]
    omega
  · simp only [withinCapacity_some, decide_eq_false_iff_not] at hcap
    simp only [h, true_iff]
    omega

/-- StoreToMemory in a bounded machine: refused past the bound, and otherwise as in the model's own machine. -/
theorem execStoreWithin_eq (c : Nat) (r : Reg) (a : Byte) (s : State) :
    execStoreWithin (some c) r a s =
      if a = 0x00#8 ∧ (s.reg r).toNat ≤ 127 ∧ c ≤ s.cell0.heldText.length then .refused .accumulatorFull
      else exec (.store r a) s := by
  rcases execStoreWithin_cases (some c) r a s with ⟨ha, h⟩ | ⟨rfl, hv, hcap, h⟩ | ⟨rfl, hv, h⟩ | ⟨rfl, hv, hcap, h⟩
  · rw [if_neg fun hfull => ha hfull.1, exec_store_memory r a s ha, h]
  · simp only [withinCapacity_some, decide_eq_true_eq] at hcap
    rw [if_neg (by omega), exec_store_append r s hv, h]
  · rw [if_neg (by omega), exec_store_outOfRange r s hv, h]
  · simp only [withinCapacity_some, decide_eq_false_iff_not] at hcap
    rw [if_pos ⟨rfl, hv, by omega⟩, h]

theorem runLoopWith_of_refused {next : State → Host.Outcome State Fault Refusal} {s : State} {q : Refusal}
    (h : next s = .refused q) (fuel : Nat) : runLoopWith next (fuel + 1) s = some (.refused q, s.markRefused q) := by
  simp [runLoopWith, h]

theorem markRefused_accumulatorFull (s : State) :
    s.markRefused .accumulatorFull = { s with refused := some .accCapacityExceeded } := rfl

/-- Settles O48: the two bounds are counted alike, and a refused step ends its RUN. -/
theorem capacityBoundsRefuse : Obligations.CapacityBoundsRefuse := by
  refine ⟨fun c k n tok rest s i img h hc => ?store, accAppend_full_iff, execStoreWithin_eq,
    fun cap fuel s q h => runLoopWith_of_refused h fuel, markRefused_accumulatorFull⟩
  case store =>
    have hfull : withinCapacity (some c) (s.prog.length + 1) = false := by
      simp only [withinCapacity_some, decide_eq_false_iff_not]
      omega
    exact Loading.loadTokens_of_full h hfull k n rest

end Sys2Proof.Capacity

/-! ## Proofs: RUN and SNAPSHOT (45_loader_and_host.md sections 3 and 4) -/
namespace Sys2Proof.Running
open Sys2Proof Sys2Proof.Machine

/-! ### Sequences of steps -/

/-- What every step keeps, a sequence of steps keeps. -/
theorem stepsToWith_keeps {next : State → Host.Outcome State Fault Refusal} {P : State → Prop}
    (hstep : ∀ s t, next s = .next t → P s → P t) {k : Nat} {s t : State} (h : stepsToWith next k s t) (hs : P s) :
    P t := by
  induction k generalizing s with
  | zero => exact h ▸ hs
  | succ k ih =>
    obtain ⟨u, hu, hrest⟩ := h
    exact ih hrest (hstep s u hu hs)

/-- One more step at the end of a sequence of steps. -/
theorem stepsToWith_snoc {next : State → Host.Outcome State Fault Refusal} {k : Nat} {s t u : State}
    (h : stepsToWith next k s t) (hlast : next t = .next u) : stepsToWith next (k + 1) s u := by
  induction k generalizing s with
  | zero =>
    cases h
    exact ⟨u, hlast, rfl⟩
  | succ k ih =>
    obtain ⟨v, hv, hrest⟩ := h
    exact ⟨v, hv, ih hrest⟩

/-! ### The loop of RUN, step by step (45_loader_and_host.md R231) -/

section
variable {next : State → Host.Outcome State Fault Refusal} {s t : State}

theorem runLoopWith_of_running (h : next s = .next t) (ht : t.status = .running) (fuel : Nat) :
    runLoopWith next (fuel + 1) s = runLoopWith next fuel t := by
  simp [runLoopWith, h, ht]

theorem runLoopWith_of_halted (h : next s = .next t) (ht : t.status = .halted) (fuel : Nat) :
    runLoopWith next (fuel + 1) s = some (.ran { reason := s.endReason, pc := t.pc, diags := t.out.diags }, t) := by
  simp [runLoopWith, h, ht]

end

/-- A longer allowance ends the loop as the shorter one did. -/
theorem runLoopWith_mono {next : State → Host.Outcome State Fault Refusal} {m n : Nat} (hmn : m ≤ n) {s : State}
    {x : RunOutcome × State} (h : runLoopWith next m s = some x) : runLoopWith next n s = some x := by
  induction m generalizing n s with
  | zero => cases h
  | succ m ih =>
    obtain ⟨n, rfl⟩ : ∃ n', n = n' + 1 := ⟨n - 1, by omega⟩
    cases hs : next s with
    | fault f => simp [runLoopWith, hs] at h
    | refused q =>
      rw [Capacity.runLoopWith_of_refused hs] at h ⊢
      exact h
    | next t =>
      cases ht : t.status with
      | running =>
        rw [runLoopWith_of_running hs ht] at h ⊢
        exact ih (by omega) h
      | halted =>
        rw [runLoopWith_of_halted hs ht] at h ⊢
        exact h

/-- Settles O51: the mark decides a refused RUN without fuel, and the loop is monotone in its fuel. -/
theorem runDoesNotDependOnFuel : Obligations.RunDoesNotDependOnFuel := by
  intro resetsPc m n s x h hmn
  unfold runWith runOver at h ⊢
  cases hr : s.refused with
  | some r => simpa only [hr] using h
  | none =>
    simp only [hr] at h ⊢
    exact runLoopWith_mono hmn h

/-! ### The invariant -/

theorem beginRun_inv {s : State} (resetsPc : Bool) (h : s.Inv) : (s.beginRun resetsPc).Inv := by
  refine ⟨h.mem, h.cell0, ?_⟩
  cases resetsPc with
  | true => exact .inr ⟨le_rfl, by simp⟩
  | false => exact h.pc

theorem markRefused_inv {s : State} (q : Refusal) (h : s.Inv) : (s.markRefused q).Inv := by
  cases q with
  | notModelled => exact h
  | machineRefused | accumulatorFull => exact ⟨h.mem, h.cell0, h.pc⟩

/-- Settles O4: LOAD by its pieces, and RUN by its steps and the state a refused step leaves. -/
theorem hostOperationsKeepInvariant : Obligations.HostOperationsKeepInvariant := by
  refine ⟨fun tokens start s h => Loading.load_inv tokens start h, fun resetsPc fuel s t o hinv h => ?run⟩
  case run =>
    unfold runWith at h
    cases hr : s.refused with
    | some r =>
      simp only [runOver, hr, Option.some.injEq, Prod.mk.injEq] at h
      exact h.2 ▸ hinv
    | none =>
      rw [runOver_unrefused resetsPc fuel hr] at h
      obtain ⟨k, u, -, hsteps, hlast⟩ := runLoopWith_cases h
      have hu : u.Inv := stepsToWith_keeps (fun s t hstep hs => Execution.stepKeepsInvariant s t hs hstep) hsteps
        (beginRun_inv resetsPc hinv)
      rcases hlast with ⟨hstep, -, -⟩ | ⟨q, -, -, rfl⟩
      · exact Execution.stepKeepsInvariant u t hu hstep
      · exact markRefused_inv q hu

/-! ### How a RUN ends (44_fetch_execute.md R209) -/

theorem unrefused_of_ran {next : State → Host.Outcome State Fault Refusal} {resetsPc : Bool} {fuel : Nat} {s t : State}
    {rep : RunReport} (h : runOver next resetsPc fuel s = some (.ran rep, t)) : s.refused = none := by
  cases hr : s.refused with
  | none => rfl
  | some r => simp [runOver, hr] at h

/-- Settles O50: the steps before the last one, and the step that halts. -/
theorem runIsASequenceOfSteps : Obligations.RunIsASequenceOfSteps := by
  intro resetsPc fuel s t rep h
  unfold runWith at h
  rw [runOver_unrefused resetsPc fuel (unrefused_of_ran h)] at h
  obtain ⟨k, u, hk, hsteps, ⟨hstep, hhalted, -⟩ | ⟨q, -, ho, -⟩⟩ := runLoopWith_cases h
  · exact ⟨hhalted, k + 1, by omega, by omega, stepsToWith_snoc hsteps hstep⟩
  · cases ho

/-- Only a refused machine refuses a step, since every execution answers. -/
theorem refused_of_step_refused {s : State} {q : Refusal} (h : step s = .refused q) : s.refused ≠ none := by
  intro hr
  cases hs : s.status with
  | halted => simp [step, stepWith, hr, hs] at h
  | running =>
    obtain ⟨t, ht⟩ := Execution.stepIsTotal s ⟨hs, hr⟩
    rw [ht] at h
    cases h

/-- A step that halts executes Halt or is an out-of-bounds fetch. -/
theorem step_halted_cases {s t : State} (h : step s = .next t) (ht : t.status = .halted) :
    (s.fetch = some .halt ∧ t.pc = -1) ∨
    (s.fetch = none ∧ t.pc = s.pc ∧ (s.pc < 0 ∨ (s.prog.length : Int) ≤ s.pc)) := by
  obtain ⟨-, hrunning, ⟨hf, rfl⟩ | ⟨i, hf, hex⟩⟩ := step_cases h
  · exact .inr ⟨hf, rfl, fetch_eq_none.mp hf⟩
  · obtain ⟨hpc, hstatus⟩ := Execution.nextPcAndStatus i s t (pc_lt_of_fetch hf).1 hex
    by_cases hi : i = .halt
    · subst hi
      exact .inl ⟨hf, hpc⟩
    · rw [if_neg hi, hrunning, ht] at hstatus
      cases hstatus

theorem endReason_of_fetch_some {s : State} {i : Instr} (h : s.fetch = some i) : s.endReason = .haltInstruction := by
  simp only [State.endReason, h]

theorem endReason_of_fetch_none {s : State} (h : s.fetch = none) : s.endReason = .endOfProgram := by
  simp only [State.endReason, h]

/-- The program store and the refusal mark along a sequence of steps. -/
theorem stepsTo_prog_refused {k : Nat} {s t : State} (h : stepsTo k s t) :
    t.prog = s.prog ∧ t.refused = s.refused := by
  refine stepsToWith_keeps (P := fun u => u.prog = s.prog ∧ u.refused = s.refused) (fun u v hstep hu => ?_) h ⟨rfl, rfl⟩
  obtain ⟨hprog, -, hrefused⟩ := Execution.stepKeepsProgramCursorAndMark u v hstep
  exact ⟨hprog.trans hu.1, hrefused.trans hu.2⟩

/-- Settles O49: no step on the way is refused, so the last one halts. -/
theorem runEndsOnlyByHaltOrOutOfBounds : Obligations.RunEndsOnlyByHaltOrOutOfBounds := by
  intro resetsPc fuel s t o hr h
  unfold runWith at h
  rw [runOver_unrefused resetsPc fuel hr] at h
  obtain ⟨k, u, hk, hsteps, ⟨hstep, hhalted, rfl⟩ | ⟨q, hq, -, -⟩⟩ := runLoopWith_cases h
  case inl =>
    obtain ⟨hprog, hrefused⟩ := stepsTo_prog_refused (stepsToWith_snoc hsteps hstep)
    refine ⟨hhalted, hprog, hrefused.trans hr, k, u, hk, hsteps, hstep, ?_⟩
    rcases step_halted_cases hstep hhalted with ⟨hf, hpc⟩ | ⟨hf, hpc, hout⟩
    · exact .inl ⟨hf, by rw [endReason_of_fetch_some hf], hpc⟩
    · exact .inr ⟨hf, by rw [endReason_of_fetch_none hf], hpc, hout⟩
  case inr =>
    obtain ⟨-, hrefused⟩ := stepsTo_prog_refused hsteps
    exact absurd (hrefused.trans hr) (refused_of_step_refused hq)

/-! ### Runs that end at once, and a run that never ends -/

/-- A RUN that starts out of bounds ends at once. -/
theorem runWith_of_fetch_none (resetsPc : Bool) (fuel : Nat) {s : State} (hr : s.refused = none)
    (hf : (s.beginRun resetsPc).fetch = none) :
    runWith resetsPc (fuel + 1) s =
      some (.ran { reason := .endOfProgram, pc := (s.beginRun resetsPc).pc, diags := [] },
        (s.beginRun resetsPc).endOfProgram) := by
  have hstep := Execution.step_endOfProgram ⟨State.beginRun_status s resetsPc, hr⟩ hf
  unfold runWith
  rw [runOver_unrefused resetsPc (fuel + 1) hr, runLoopWith_of_halted hstep rfl, endReason_of_fetch_none hf]
  rfl

theorem beginRun_of_pc_zero {s : State} (hpc : s.pc = 0) (resetsPc : Bool) : (s.beginRun resetsPc).pc = 0 := by
  simp [hpc]

/-- Settles O53: slot 0 of an empty store is out of bounds, and the pc is 0 whether RUN sets it or not. -/
theorem emptyProgramEndsAtOnce : Obligations.EmptyProgramEndsAtOnce := by
  intro fuel s hr hprog hpc
  have hpc0 := beginRun_of_pc_zero hpc Config.runResetsPc
  have hf : (s.beginRun Config.runResetsPc).fetch = none :=
    fetch_eq_none.mpr (.inr (by rw [hpc0, State.beginRun_prog, hprog]; rfl))
  unfold run
  rw [runWith_of_fetch_none _ fuel hr hf, hpc0]
  simp only [State.endOfProgram, State.beginRun, hpc, ite_self]

/-- Settles O54: the pc -1 that a Halt left is out of bounds. -/
theorem secondRunAfterHaltEndsAtOnce : Obligations.SecondRunAfterHaltEndsAtOnce := by
  intro fuel s hr hpc
  have hf : (s.beginRun false).fetch = none := fetch_eq_none.mpr (.inl (by simp [hpc]))
  rw [runWith_of_fetch_none false fuel hr hf]
  simp [State.endOfProgram, State.beginRun, hpc]

/-- A taken jump to its own slot adds its event to the trace and nothing else. -/
theorem step_self_jump {s : State} {r : Reg} {target : Target} (h : s.Executes (.jumpEq r target))
    (hpc : s.pc = target.val) (heq : s.reg r = s.reg 0) :
    step s = .next (s.withOut { s.out with trace := s.out.trace ++ [.jumpTaken target] }) := by
  rw [Execution.step_of_ready h.ready h.fetch, exec_jumpEq_taken r target s heq, complete_jumpTo, ← hpc]
  rfl

/-- Settles O52: the outputs are no part of what the jump looks at, so it is at itself again. -/
theorem jumpToItselfNeverEnds : Obligations.JumpToItselfNeverEnds := by
  intro s r target h hpc heq
  refine ⟨step_self_jump h hpc heq, fun fuel => ?never⟩
  case never =>
    unfold runLoop
    induction fuel generalizing s with
    | zero => rfl
    | succ fuel ih =>
      rw [runLoopWith_of_running (step_self_jump h hpc heq) h.ready.running]
      exact ih _ ⟨⟨h.ready.running, h.ready.unrefused⟩, h.fetch⟩ hpc heq

/-! ### SNAPSHOT (45_loader_and_host.md R234) -/

/-- Settles O55: an address of a byte cell is inside memory and not cell 0. -/
theorem snapshotIsExact : Obligations.SnapshotIsExact := by
  refine fun s => ⟨fun _ => rfl, fun a h1 h255 => ?cell, rfl, rfl⟩
  case cell =>
    have hin : ¬((a : Int) < 0 ∨ 255 < (a : Int)) := by omega
    have h0 : ¬(a : Int) = 0 := by omega
    rw [memRead, if_neg hin, if_neg h0]
    rfl

/-! ### RUN with a bounded accumulator (20_memory.md R57) -/

/-- An append that a machine with the bound `c` refuses. -/
structure PassesBound (c : Nat) (r : Reg) (s : State) : Prop where
  executes : s.Executes (.store r 0x00#8)
  ascii : (s.reg r).toNat ≤ 127
  full : c ≤ s.cell0.heldText.length

theorem stepWithin_of_passesBound {c : Nat} {r : Reg} {s : State} (h : PassesBound c r s) :
    stepWithin (some c) s = .refused .accumulatorFull := by
  obtain ⟨⟨hready, hf⟩, hv, hfull⟩ := h
  have hexec : stepWithin (some c) s = execStoreWithin (some c) r 0x00#8 s :=
    stepWith_executes hready.unrefused hready.running hf
  rw [hexec, Capacity.execStoreWithin_eq, if_pos ⟨rfl, hv, hfull⟩]

/-- The steps of two machines agree where their executions of the fetched instruction do. -/
theorem stepWith_congr {execute execute' : Instr → State → Host.Outcome State Fault Refusal} {s : State}
    (h : ∀ i, s.Executes i → execute i s = execute' i s) : stepWith execute s = stepWith execute' s := by
  unfold stepWith
  cases hr : s.refused with
  | some r => rfl
  | none =>
    cases hs : s.status with
    | halted => rfl
    | running =>
      cases hf : s.fetch with
      | none => rfl
      | some i => exact h i ⟨⟨hs, hr⟩, hf⟩

theorem stepWithin_of_not_passesBound {c : Nat} {s : State} (h : ∀ r, ¬PassesBound c r s) :
    stepWithin (some c) s = step s := by
  refine stepWith_congr fun i hi => ?_
  by_cases hstore : ∀ r a, i ≠ .store r a
  · exact execWithin_of_not_store (some c) hstore s
  · push Not at hstore
    obtain ⟨r, a, rfl⟩ := hstore
    have hfits : ¬(a = 0x00#8 ∧ (s.reg r).toNat ≤ 127 ∧ c ≤ s.cell0.heldText.length) := by
      rintro ⟨rfl, hv, hfull⟩
      exact h r ⟨hi, hv, hfull⟩
    exact (Capacity.execStoreWithin_eq c r a s).trans (if_neg hfits)

/-- A step that answers, or refuses an append, is taken while Running. -/
theorem running_of_stepWithin {cap : Option Nat} {s : State}
    (h : (∃ t, stepWithin cap s = .next t) ∨ stepWithin cap s = .refused .accumulatorFull) : s.status = .running := by
  rcases h with ⟨t, ht⟩ | hq
  · exact (stepWith_cases ht).2.1
  · cases hs : s.status with
    | running => rfl
    | halted => cases hr : s.refused <;> simp [stepWithin, stepWith, hr, hs] at hq

/-- The loop ends where a sequence of its steps comes to a refused append. -/
theorem runLoopWith_of_accumulatorFull {cap : Option Nat} {k : Nat} {s u : State}
    (hsteps : stepsToWith (stepWithin cap) k s u) (hq : stepWithin cap u = .refused .accumulatorFull) {fuel : Nat}
    (hk : k < fuel) :
    runLoopWith (stepWithin cap) fuel s = some (.refused .accumulatorFull, u.markRefused .accumulatorFull) := by
  obtain ⟨fuel, rfl⟩ : ∃ n, fuel = n + 1 := ⟨fuel - 1, by omega⟩
  induction k generalizing s fuel with
  | zero =>
    cases hsteps
    exact Capacity.runLoopWith_of_refused hq fuel
  | succ k ih =>
    obtain ⟨v, hv, hrest⟩ := hsteps
    obtain ⟨fuel, rfl⟩ : ∃ n, fuel = n + 1 := ⟨fuel - 1, by omega⟩
    have hrunning : v.status = .running := by
      cases k with
      | zero =>
        cases hrest
        exact running_of_stepWithin (.inr hq)
      | succ k =>
        obtain ⟨w, hw, -⟩ := hrest
        exact running_of_stepWithin (.inl ⟨w, hw⟩)
    rw [runLoopWith_of_running hv hrunning]
    exact ih hrest fuel (by omega)

/-- RUN is refused by the bound exactly where its steps come to a refused append. -/
theorem runWithin_accumulatorFull_iff (c : Nat) (resetsPc : Bool) (fuel : Nat) {s : State} (hr : s.refused = none)
    (t : State) :
    runWithin (some c) resetsPc fuel s = some (.refused .accumulatorFull, t) ↔
      ∃ (k : Nat) (u : State), k < fuel ∧ stepsToWith (stepWithin (some c)) k (s.beginRun resetsPc) u ∧
        stepWithin (some c) u = .refused .accumulatorFull ∧ t = { u with refused := some .accCapacityExceeded } := by
  unfold runWithin
  rw [runOver_unrefused resetsPc fuel hr]
  constructor
  · intro h
    obtain ⟨k, u, hk, hsteps, ⟨-, -, ho⟩ | ⟨q, hq, ho, ht⟩⟩ := runLoopWith_cases h
    · cases ho
    · cases ho
      exact ⟨k, u, hk, hsteps, hq, ht⟩
  · rintro ⟨k, u, hk, hsteps, hq, rfl⟩
    exact runLoopWith_of_accumulatorFull hsteps hq hk

/-- Without a bound the step is that of the model's own machine. -/
theorem stepWithin_none : stepWithin none = step :=
  funext fun s => stepWith_congr fun i _ => execWithin_none i s

/-- Settles O56: the step by whether it is an append past the bound, and RUN by its steps. -/
theorem boundedAccumulatorRefusesTheRun : Obligations.BoundedAccumulatorRefusesTheRun := by
  refine ⟨fun c r s hex hv hfull => stepWithin_of_passesBound ⟨hex, hv, hfull⟩, fun c s h => ?below,
    fun c resetsPc fuel s t hr => runWithin_accumulatorFull_iff c resetsPc fuel hr t, fun resetsPc fuel s => ?unbounded⟩
  case below => exact stepWithin_of_not_passesBound fun r hp => absurd (h r hp.executes hp.ascii) (not_lt.mpr hp.full)
  case unbounded =>
    unfold runWithin
    rw [stepWithin_none]
    exact ⟨rfl, rfl⟩

end Sys2Proof.Running

/-! ## Proofs: the float-8 codec and the arithmetic on it (40_float_codec.md, 42_arithmetic.md) -/
namespace Sys2Proof.FloatCodec
open Sys2Proof Sys2Proof.Machine

/-! ### The encoder over the rationals, clause by clause (40_float_codec.md R124) -/

/-- `floor(log2 a)` is the exponent of the power of two at or below `a`. -/
theorem intLog_eq {a : ℚ} {e : ℤ} (hlo : (2 : ℚ) ^ e ≤ a) (hhi : a < (2 : ℚ) ^ (e + 1)) : Int.log 2 a = e := by
  have ha : 0 < a := lt_of_lt_of_le (by positivity) hlo
  have hle : e ≤ Int.log 2 a := (Int.zpow_le_iff_le_log one_lt_two ha).mp (by exact_mod_cast hlo)
  have hlt : Int.log 2 a < e + 1 := (Int.lt_zpow_iff_log_lt one_lt_two ha).mp (by exact_mod_cast hhi)
  omega

theorem f8Encode_zero : f8Encode 0 = 0x00#8 := by simp [f8Encode]

/-- Too large: the greatest code of the sign. -/
theorem f8Encode_of_large {q : ℚ} (h : 16 ≤ |q|) : f8Encode q = f8Pack (q < 0) 7 0xF := by
  have hpos : 0 < |q| := by linarith
  have hlog : 4 ≤ Int.log 2 |q| := (Int.zpow_le_iff_le_log one_lt_two hpos).mp (by norm_num; exact h)
  have hover : 7 < Int.log 2 |q| + 4 := by omega
  simp only [f8Encode, if_neg (abs_pos.mp hpos), if_pos hover]

/-- Too small: the least code of the sign. -/
theorem f8Encode_of_small {q : ℚ} (h0 : q ≠ 0) (h : |q| < 1 / 16) : f8Encode q = f8Pack (q < 0) 0 0 := by
  have hlog : Int.log 2 |q| < -4 := (Int.lt_zpow_iff_log_lt one_lt_two (abs_pos.mpr h0)).mp (by norm_num; linarith)
  have hover : ¬7 < Int.log 2 |q| + 4 := by omega
  have hunder : Int.log 2 |q| + 4 < 0 := by omega
  simp only [f8Encode, if_neg h0, if_neg hover, if_pos hunder]

/-- In range: the exponent of the power of two at or below the magnitude, and the mantissa truncated. -/
theorem f8Encode_of_mid {q : ℚ} {e : ℤ} (hlo : (2 : ℚ) ^ e ≤ |q|) (hhi : |q| < (2 : ℚ) ^ (e + 1)) (he : -4 ≤ e)
    (he' : e ≤ 3) : f8Encode q = f8Pack (q < 0) (e + 4).toNat (⌊|q| / (2 : ℚ) ^ e * 16⌋ % 16).toNat := by
  have hpos : 0 < |q| := lt_of_lt_of_le (by positivity) hlo
  have hover : ¬7 < e + 4 := by omega
  have hunder : ¬e + 4 < 0 := by omega
  simp only [f8Encode, intLog_eq hlo hhi, if_neg (abs_pos.mp hpos), if_neg hover, if_neg hunder]

/-! ### The integer form of a value (40_float_codec.md R122) -/

theorem f8Decode_eq_scaled (b : Byte) : f8Decode b = (f8Scaled b : ℚ) / 256 := by
  have hpow : (2 : ℚ) ^ ((f8Exponent b : ℤ) - 4) = 2 ^ f8Exponent b / 16 := by
    rw [zpow_sub₀ two_ne_zero, zpow_natCast]
    norm_num
  rw [f8Decode, f8Scaled, hpow]
  cases f8Sign b <;> (push_cast; ring)

theorem abs_f8Scaled (b : Byte) : |f8Scaled b| = ((16 + f8Mantissa b) * 2 ^ f8Exponent b : Nat) := by
  rw [f8Scaled, abs_mul, Nat.abs_cast]
  cases f8Sign b <;> simp

theorem natAbs_f8Scaled (b : Byte) : (f8Scaled b).natAbs = (16 + f8Mantissa b) * 2 ^ f8Exponent b := by
  rw [← Nat.cast_inj (R := ℤ), Int.natCast_natAbs, abs_f8Scaled]

theorem f8Scaled_neg_iff (b : Byte) : f8Scaled b < 0 ↔ f8Sign b = true := by
  have hpos : (0 : ℤ) < ((16 + f8Mantissa b) * 2 ^ f8Exponent b : Nat) := by positivity
  rw [f8Scaled]
  cases f8Sign b
  · simp only [Bool.false_eq_true, if_false, iff_false]; omega
  · simp only [if_true, iff_true]; omega

theorem abs_f8Scaled_bounds (b : Byte) : 16 ≤ |f8Scaled b| ∧ |f8Scaled b| ≤ 3968 := by
  have hm := f8Mantissa_lt b
  have hlo : 2 ^ 0 ≤ 2 ^ f8Exponent b := Nat.pow_le_pow_right two_pos (Nat.zero_le _)
  have hhi : 2 ^ f8Exponent b ≤ 2 ^ 7 := Nat.pow_le_pow_right two_pos (Nat.le_of_lt_succ (f8Exponent_lt b))
  have h16 : 16 * 1 ≤ (16 + f8Mantissa b) * 2 ^ f8Exponent b := Nat.mul_le_mul (by omega) hlo
  have h3968 : (16 + f8Mantissa b) * 2 ^ f8Exponent b ≤ 31 * 128 := Nat.mul_le_mul (by omega) hhi
  rw [abs_f8Scaled]
  omega

/-- Settles O36: the value by its fields, and the bounds by those of the fields. -/
theorem f8DecodeScaledBy256 : Obligations.F8DecodeScaledBy256 :=
  fun b => ⟨f8Decode_eq_scaled b, abs_f8Scaled_bounds b⟩

/-! ### The integer form of the encoder (40_float_codec.md R126) -/

theorem two_zpow_sub_eight (k : Nat) : (2 : ℚ) ^ ((k : ℤ) - 8) = ((2 ^ k : Nat) : ℚ) / 256 := by
  rw [zpow_sub₀ two_ne_zero, zpow_natCast]
  norm_num

/-- Where `a / 256` stands among the powers of two is where `a` stands. -/
theorem two_zpow_le_scaled {k a : Nat} : (2 : ℚ) ^ ((k : ℤ) - 8) ≤ (a : ℚ) / 256 ↔ 2 ^ k ≤ a := by
  rw [two_zpow_sub_eight, div_le_div_iff_of_pos_right (by norm_num), Nat.cast_le]

theorem scaled_lt_two_zpow {k a : Nat} : (a : ℚ) / 256 < (2 : ℚ) ^ ((k : ℤ) - 8) ↔ a < 2 ^ k := by
  rw [two_zpow_sub_eight, div_lt_div_iff_of_pos_right (by norm_num), Nat.cast_lt]

/-- The mantissa of an in-range multiple of 1/256, before it is reduced modulo 16. -/
theorem floor_scaled_mantissa (a j : Nat) :
    ⌊(a : ℚ) / 256 / (2 : ℚ) ^ (((j + 4 : Nat) : ℤ) - 8) * 16⌋ = ((a / 2 ^ j : Nat) : ℤ) := by
  have hquot : (a : ℚ) / 256 / (2 : ℚ) ^ (((j + 4 : Nat) : ℤ) - 8) * 16 = (a : ℚ) / ((2 ^ j : Nat) : ℚ) := by
    rw [two_zpow_sub_eight, pow_add]
    push_cast
    field_simp
  rw [hquot, Rat.floor_natCast_div_natCast, Int.natCast_ediv]

theorem abs_scaled (n : Int) : |(n : ℚ) / 256| = (n.natAbs : ℚ) / 256 := by
  rw [abs_div, Nat.cast_natAbs, Int.cast_abs]
  norm_num

theorem scaled_neg_iff (n : Int) : (n : ℚ) / 256 < 0 ↔ n < 0 := by
  rw [div_neg_iff]
  norm_num

theorem toNat_natCast_mod (a : Nat) : ((a : ℤ) % 16).toNat = a % 16 := by omega

/-- Settles O37: the bit length of `|n|` places `|n| / 256` among the powers of two. -/
theorem f8EncodeIntegerForm : Obligations.F8EncodeIntegerForm := by
  intro n
  by_cases h0 : n = 0
  · subst h0
    simp [f8EncodeInt, f8Encode_zero]
  have habs0 : n.natAbs ≠ 0 := Int.natAbs_ne_zero.mpr h0
  by_cases hover : 11 < n.natAbs.log2
  · have hlarge : 16 ≤ |(n : ℚ) / 256| := by
      have := two_zpow_le_scaled.mpr ((Nat.le_log2 habs0).mp hover)
      rw [abs_scaled]
      norm_num at this ⊢
      exact this
    simp only [f8EncodeInt, if_neg h0, if_pos hover, f8Encode_of_large hlarge, scaled_neg_iff]
  by_cases hunder : n.natAbs.log2 < 4
  · have hsmall : |(n : ℚ) / 256| < 1 / 16 := by
      have := scaled_lt_two_zpow.mpr ((Nat.log2_lt habs0).mp hunder)
      rw [abs_scaled]
      norm_num at this ⊢
      exact this
    have hne : (n : ℚ) / 256 ≠ 0 := div_ne_zero (by exact_mod_cast h0) (by norm_num)
    simp only [f8EncodeInt, if_neg h0, if_neg hover, if_pos hunder, f8Encode_of_small hne hsmall, scaled_neg_iff]
  · obtain ⟨j, hj⟩ : ∃ j, n.natAbs.log2 = j + 4 := ⟨n.natAbs.log2 - 4, by omega⟩
    have hlo := two_zpow_le_scaled.mpr (hj ▸ Nat.log2_self_le habs0)
    have hhi := scaled_lt_two_zpow.mpr (hj ▸ Nat.lt_log2_self (n := n.natAbs))
    have hsucc : (((j + 4 + 1 : Nat) : ℤ) - 8) = ((j + 4 : Nat) : ℤ) - 8 + 1 := by omega
    have hexp : (((j + 4 : Nat) : ℤ) - 8 + 4).toNat = j := by omega
    rw [← abs_scaled] at hlo hhi
    rw [f8Encode_of_mid hlo (hsucc ▸ hhi) (by omega) (by omega), abs_scaled, floor_scaled_mantissa, toNat_natCast_mod,
      hexp]
    simp only [f8EncodeInt, if_neg h0, hj, if_neg (by omega : ¬11 < j + 4), if_neg (by omega : ¬j + 4 < 4),
      Nat.add_sub_cancel, scaled_neg_iff]

/-! ### Round trip and magnitudes (40_float_codec.md sections 1 and 4) -/

/-- The integer form of the encoder reads back the scaled value of every code. -/
theorem f8EncodeInt_f8Scaled (b : Byte) : f8EncodeInt (f8Scaled b) = b := by
  have hm := f8Mantissa_lt b
  have he := f8Exponent_lt b
  have habs := natAbs_f8Scaled b
  have hpos : 0 < 2 ^ f8Exponent b := Nat.two_pow_pos _
  have h0 : f8Scaled b ≠ 0 := by
    rw [← Int.natAbs_ne_zero, habs]
    positivity
  have hlog : (f8Scaled b).natAbs.log2 = f8Exponent b + 4 := by
    rw [habs, Nat.log2_eq_iff (by positivity)]
    constructor
    · calc 2 ^ (f8Exponent b + 4) = 16 * 2 ^ f8Exponent b := by ring
        _ ≤ (16 + f8Mantissa b) * 2 ^ f8Exponent b := Nat.mul_le_mul_right _ (by omega)
    · calc (16 + f8Mantissa b) * 2 ^ f8Exponent b < 32 * 2 ^ f8Exponent b := Nat.mul_lt_mul_of_pos_right (by omega) hpos
        _ = 2 ^ (f8Exponent b + 4 + 1) := by ring
  have hmant : (f8Scaled b).natAbs / 2 ^ f8Exponent b % 16 = f8Mantissa b := by
    rw [habs, Nat.mul_div_cancel _ hpos]
    omega
  have hsign : decide (f8Scaled b < 0) = f8Sign b := by simp [f8Scaled_neg_iff]
  simp only [f8EncodeInt, if_neg h0, hlog, if_neg (by omega : ¬11 < f8Exponent b + 4),
    if_neg (by omega : ¬f8Exponent b + 4 < 4), Nat.add_sub_cancel, hmant, hsign, f8Pack_fields]

/-- Settles O38: through the integer forms of both directions. -/
theorem f8RoundTrip : Obligations.F8RoundTrip := by
  intro b
  rw [f8Decode_eq_scaled, ← f8EncodeIntegerForm, f8EncodeInt_f8Scaled]

theorem f8Decode_injective {b c : Byte} (h : f8Decode b = f8Decode c) : b = c := by
  rw [← f8RoundTrip b, h, f8RoundTrip c]

theorem f8Sign_flip (b : Byte) : f8Sign (b ^^^ 0x80#8) = !f8Sign b := by revert b; decide

theorem f8Exponent_flip (b : Byte) : f8Exponent (b ^^^ 0x80#8) = f8Exponent b := by revert b; decide

theorem f8Mantissa_flip (b : Byte) : f8Mantissa (b ^^^ 0x80#8) = f8Mantissa b := by revert b; decide

/-- The sign bit negates the value. -/
theorem f8Decode_flip (b : Byte) : f8Decode (b ^^^ 0x80#8) = -f8Decode b := by
  rw [f8Decode, f8Decode, f8Sign_flip, f8Exponent_flip, f8Mantissa_flip]
  cases f8Sign b <;> (simp only [Bool.not_true, Bool.not_false, Bool.false_eq_true, if_true, if_false]; ring)

theorem abs_f8Decode_bounds (b : Byte) : (1 : ℚ) / 16 ≤ |f8Decode b| ∧ |f8Decode b| ≤ 31 / 2 := by
  obtain ⟨hlo, hhi⟩ := abs_f8Scaled_bounds b
  have hlo : (16 : ℚ) ≤ |(f8Scaled b : ℚ)| := by exact_mod_cast hlo
  have hhi : |(f8Scaled b : ℚ)| ≤ 3968 := by exact_mod_cast hhi
  rw [f8Decode_eq_scaled, abs_div, abs_of_pos (by norm_num : (0 : ℚ) < 256)]
  constructor <;> linarith

/-- Settles O39: codes of one magnitude have equal or opposite values, and a value has one code. -/
theorem f8Magnitudes : Obligations.F8Magnitudes := by
  refine ⟨abs_f8Decode_bounds, f8Decode_flip, fun b c h => ?twoCodes⟩
  case twoCodes =>
    rcases abs_eq_abs.mp h with heq | hneg
    · exact .inl (f8Decode_injective heq).symm
    · refine .inr (f8Decode_injective ?_)
      rw [f8Decode_flip, hneg, neg_neg]

/-! ### Saturation and truncation, for every rational (40_float_codec.md sections 3 and 4) -/

/-- Settles O40: the clauses of the encoder out of range, on either side of zero. -/
theorem f8Saturates : Obligations.F8Saturates := by
  refine ⟨f8Encode_zero, fun q => ⟨fun h => ?top, fun h => ?bottom, fun h0 h => ?least, fun h h0 => ?leastNegative⟩⟩
  case top =>
    rw [f8Encode_of_large (le_abs.mpr (.inl h)), decide_eq_false (by linarith)]
    decide
  case bottom =>
    rw [f8Encode_of_large (le_abs.mpr (.inr (by linarith))), decide_eq_true (by linarith)]
    decide
  case least =>
    rw [f8Encode_of_small h0.ne' (abs_lt.mpr ⟨by linarith, h⟩), decide_eq_false (by linarith)]
    decide
  case leastNegative =>
    rw [f8Encode_of_small h0.ne (abs_lt.mpr ⟨h, by linarith⟩), decide_eq_true h0]
    decide

/-- The value of a packed code with a normal mantissa. -/
theorem f8Decode_pack (sign : Bool) {e m : Nat} (he : e < 8) (hm : m < 16) :
    f8Decode (f8Pack sign e m) = (if sign then -1 else 1) * (1 + (m : ℚ) / 16) * (2 : ℚ) ^ ((e : ℤ) - 4) := by
  rw [f8Decode, f8Sign_pack, f8Exponent_pack, f8Mantissa_pack, Nat.mod_eq_of_lt he, Nat.mod_eq_of_lt hm]

/-- In range the magnitude is 16 to 31 sixteenths of its power of two, after truncation. -/
theorem mantissa_range {a : ℚ} {e : ℤ} (hlo : (2 : ℚ) ^ e ≤ a) (hhi : a < (2 : ℚ) ^ (e + 1)) :
    16 ≤ ⌊a / (2 : ℚ) ^ e * 16⌋ ∧ ⌊a / (2 : ℚ) ^ e * 16⌋ < 32 := by
  have hpow : (0 : ℚ) < (2 : ℚ) ^ e := by positivity
  have hone : 1 ≤ a / (2 : ℚ) ^ e := (one_le_div hpow).mpr hlo
  have htwo : a / (2 : ℚ) ^ e < 2 := by
    rw [div_lt_iff₀ hpow]
    rwa [zpow_add_one₀ two_ne_zero, mul_comm] at hhi
  rw [Int.le_floor, Int.floor_lt]
  push_cast
  constructor <;> linarith

/-- In range the encoded value is the sign times the magnitude cut to sixteenths of its power of two. -/
theorem f8Decode_f8Encode_of_mid {q : ℚ} {e : ℤ} (hlo : (2 : ℚ) ^ e ≤ |q|) (hhi : |q| < (2 : ℚ) ^ (e + 1)) (he : -4 ≤ e)
    (he' : e ≤ 3) :
    f8Decode (f8Encode q) = (if q < 0 then -1 else 1) * (⌊|q| / (2 : ℚ) ^ e * 16⌋ / 16 * (2 : ℚ) ^ e) := by
  obtain ⟨h16, h32⟩ := mantissa_range hlo hhi
  rw [f8Encode_of_mid hlo hhi he he']
  generalize ⌊|q| / (2 : ℚ) ^ e * 16⌋ = m at h16 h32 ⊢
  have hmant : (((m % 16).toNat : Nat) : ℚ) = m - 16 := by
    have : (((m % 16).toNat : Nat) : ℤ) = m - 16 := by omega
    exact_mod_cast this
  have hexp : (((e + 4).toNat : Nat) : ℤ) - 4 = e := by omega
  rw [f8Decode_pack _ (by omega) (by omega), hexp, hmant]
  simp only [decide_eq_true_eq]
  ring

/-- A magnitude in range has its power of two in range. -/
theorem exponent_range {a : ℚ} {e : ℤ} (h : 1 / 16 ≤ a) (h' : a < 16) (hlo : (2 : ℚ) ^ e ≤ a)
    (hhi : a < (2 : ℚ) ^ (e + 1)) : -4 ≤ e ∧ e ≤ 3 := by
  have hmin : (2 : ℚ) ^ (-4 : ℤ) < (2 : ℚ) ^ (e + 1) := by
    norm_num
    linarith
  have hmax : (2 : ℚ) ^ e < (2 : ℚ) ^ (4 : ℤ) := by
    norm_num
    linarith
  have := (zpow_lt_zpow_iff_right₀ one_lt_two).mp hmin
  have := (zpow_lt_zpow_iff_right₀ one_lt_two).mp hmax
  omega

/-- The sign of `q` changes no magnitude. -/
theorem abs_signed (q m : ℚ) : |(if q < 0 then -1 else 1) * m| = |m| := by
  split_ifs <;> simp

/-- A positive magnitude with the sign of `q` is positive where `q` is. -/
theorem signed_pos_iff {q m : ℚ} (hm : 0 < m) (hq : q ≠ 0) : 0 < (if q < 0 then -1 else 1) * m ↔ 0 < q := by
  split_ifs with h
  · constructor <;> intro _ <;> linarith
  · have : 0 < q := lt_of_le_of_ne (not_lt.mp h) hq.symm
    simp [hm, this]

/-- Settles O41: a floor is at most its argument and less than one below it. -/
theorem f8TruncatesTowardZero : Obligations.F8TruncatesTowardZero := by
  intro q e h h' hlo hhi
  obtain ⟨he, he'⟩ := exponent_range h h' hlo hhi
  have hpow : (0 : ℚ) < (2 : ℚ) ^ e := by positivity
  have h16 : (16 : ℚ) ≤ ⌊|q| / (2 : ℚ) ^ e * 16⌋ := by exact_mod_cast (mantissa_range hlo hhi).1
  have hpos : (0 : ℚ) < ⌊|q| / (2 : ℚ) ^ e * 16⌋ / 16 * (2 : ℚ) ^ e := mul_pos (by linarith) hpow
  have hq : |q| / (2 : ℚ) ^ e * 16 * (2 : ℚ) ^ e = |q| * 16 := by field_simp
  have hle := mul_le_mul_of_nonneg_right (Int.floor_le (|q| / (2 : ℚ) ^ e * 16)) hpow.le
  have hlt := mul_lt_mul_of_pos_right (Int.lt_floor_add_one (|q| / (2 : ℚ) ^ e * 16)) hpow
  rw [hq] at hle hlt
  rw [f8Decode_f8Encode_of_mid hlo hhi he he', abs_signed, abs_of_pos hpos]
  refine ⟨signed_pos_iff hpos (abs_pos.mp (by linarith)), ?_, ?_⟩ <;> linarith

/-! ### ADD and ADDF (42_arithmetic.md R160, R161) -/

/-- The signed and the unsigned sum of two bytes agree modulo 256. -/
theorem trunc8_sext8_add (u v : Byte) : trunc8 (sext8 u + sext8 v) = u + v := by
  rw [trunc8_eq_ofInt, sext8_eq_toInt, sext8_eq_toInt, BitVec.ofInt_add, BitVec.ofInt_toInt, BitVec.ofInt_toInt]

/-- Settles O32: two's complement makes the signed sum the unsigned one. -/
theorem addIsTheUnsignedSum : Obligations.AddIsTheUnsignedSum := by
  intro d a b s t hex
  rw [exec_addInt] at hex
  cases hex
  rw [State.reg_complete, State.reg_setReg_self, trunc8_sext8_add]

/-- The word of ADDF carries its three registers as digits (30_encoding.md R84). -/
theorem decodeWord_addFloat (d a b : Reg) :
    decodeWord (0x6#4 ++ regDigit d ++ regDigit a ++ regDigit b) =
      .ok (.addFloat d a b) (0x6#4 ++ regDigit d, regDigit a ++ regDigit b) := by
  rw [decodeWord_digits]
  rfl

/-- The integer form of the float-8 sum is the encoded rational sum (40_float_codec.md R126). -/
theorem f8EncodeInt_f8Scaled_add (u v : Byte) :
    f8EncodeInt (f8Scaled u + f8Scaled v) = f8Encode (f8Decode u + f8Decode v) := by
  rw [f8Decode_eq_scaled, f8Decode_eq_scaled, ← add_div, ← Int.cast_add, f8EncodeIntegerForm]

/-- Settles O33: ADDF computes in the integer form, which is the rational rule. -/
theorem addFloatIsTheRationalSum : Obligations.AddFloatIsTheRationalSum := by
  intro d a b s hpc
  refine ⟨decodeWord_addFloat d a b, ?_⟩
  rw [exec_addFloat, DataTransfer.setReg_complete_proceed s d _ hpc, f8EncodeInt_f8Scaled_add]

end Sys2Proof.FloatCodec

/-! ## Proofs: words and tokens. The decoder, the encoder and the tokenizer (30_encoding.md) -/
namespace Sys2Proof.Words
open Sys2Proof Sys2Proof.Machine

/-! ### A word, its four digits and its token (30_encoding.md R81, R82) -/

/-- A word is its four digits. -/
theorem word_of_digits (w : Word) :
    w.extractLsb' 12 4 ++ w.extractLsb' 8 4 ++ w.extractLsb' 4 4 ++ w.extractLsb' 0 4 = w := by
  have hw := w.isLt
  apply BitVec.eq_of_toNat_eq
  rw [toNat_digits]
  simp only [toNat_field]
  omega

/-- Every word is written as four digits. -/
theorem exists_digits (w : Word) : ∃ o r x y : Nibble, w = o ++ r ++ x ++ y :=
  ⟨_, _, _, _, (word_of_digits w).symm⟩

theorem byteToHex_pair (x y : Nibble) : byteToHex (x ++ y) = [hexChar x, hexChar y] := by
  have := x.isLt; have := y.isLt
  have hx : BitVec.extractLsb' 4 4 (x ++ y) = x := by
    apply BitVec.eq_of_toNat_eq
    rw [BitVec.extractLsb'_toNat, toNat_pair, Nat.shiftRight_eq_div_pow]
    omega
  have hy : BitVec.extractLsb' 0 4 (x ++ y) = y := by
    apply BitVec.eq_of_toNat_eq
    rw [BitVec.extractLsb'_toNat, toNat_pair, Nat.shiftRight_eq_div_pow]
    omega
  rw [byteToHex, hx, hy]

/-- The image of a word of four digits: the first pair and the second. -/
theorem wordImage_digits (o r x y : Nibble) : wordImage (o ++ r ++ x ++ y) = (o ++ r, x ++ y) := by
  have := o.isLt; have := r.isLt; have := x.isLt; have := y.isLt
  refine Prod.ext ?_ ?_ <;>
  · apply BitVec.eq_of_toNat_eq
    rw [wordImage, toNat_pair, toNat_field, toNat_digits]
    omega

theorem wordToToken_eq (w : Word) : wordToToken w = byteToHex (wordImage w).1 ++ byteToHex (wordImage w).2 := rfl

theorem wordToToken_digits (o r x y : Nibble) :
    wordToToken (o ++ r ++ x ++ y) = [hexChar o, hexChar r, hexChar x, hexChar y] := by
  rw [wordToToken_eq, wordImage_digits, byteToHex_pair, byteToHex_pair]
  rfl

/-- The token of four digits decodes as the digits do. -/
theorem decodeToken_hexChars (o r x y : Nibble) :
    decodeToken [hexChar o, hexChar r, hexChar x, hexChar y] = decodeDigits o r x y := by
  cases ho : opcodeKnown o with
  | true => simp [decodeToken, decodeChars, ho]
  | false => simp [decodeToken, decodeChars, ho, decodeDigits_of_unknown r x y ho]

/-- Settles O6: both read the word's four digits. -/
theorem tokenAndWordDecodeAlike : Obligations.TokenAndWordDecodeAlike := by
  intro w
  obtain ⟨o, r, x, y, rfl⟩ := exists_digits w
  rw [wordToToken_digits, decodeToken_hexChars, decodeWord_digits]

/-! ### The digits of an admitted word (30_encoding.md R88, R90, R96) -/

/-- The image of an admitted word is its digits in pairs. -/
theorem image_of_decodeDigits {o r x y : Nibble} {i : Instr} {img : Byte × Byte}
    (h : decodeDigits o r x y = .ok i img) : img = (o ++ r, x ++ y) := by
  unfold decodeDigits at h
  split at h
  case h_4 => split_ifs at h; cases h; rfl
  case h_7 => split at h <;> cases h; rfl
  case h_9 => cases h
  all_goals cases h; rfl

/-- The eight listed opcode digits (30_encoding.md R88). -/
theorem opcode_cases {o : Nibble} (h : opcodeKnown o = true) :
    o = 0x1#4 ∨ o = 0x2#4 ∨ o = 0x3#4 ∨ o = 0x4#4 ∨ o = 0x5#4 ∨ o = 0x6#4 ∨ o = 0xB#4 ∨ o = 0xC#4 := by
  revert o; decide

theorem decimalTarget_isSome (x y : Nibble) :
    (decimalTarget x y).isSome = (decide (x.toNat ≤ 9) && decide (y.toNat ≤ 9)) := by
  unfold decimalTarget
  split_ifs with h
  · simp [h]
  · rw [Option.isSome_none, ← Bool.decide_and]
    exact (decide_eq_false h).symm

/-- The checks of a well-formed word are on its digits. -/
theorem wellFormed_digits (o r x y : Nibble) :
    WellFormed.word (o ++ r ++ x ++ y) =
      (opcodeKnown o && (o != 0x4#4 || r == 0x0#4) && (o != 0xB#4 || (decimalTarget x y).isSome)) := by
  rw [decimalTarget_isSome]
  unfold WellFormed.word WellFormed.opcodeListed WellFormed.copyFieldZero WellFormed.targetDecimal
  rw [digits_op, digits_reg, digits_x, digits_y]
  rfl

/-- Four digits decode exactly where the word is well formed: opcode 4 asks for a register digit 0, opcode B for a
decimal target, the other listed opcodes for nothing. -/
theorem decodeDigits_ok_iff (o r x y : Nibble) :
    (∃ i img, decodeDigits o r x y = .ok i img) ↔ WellFormed.word (o ++ r ++ x ++ y) = true := by
  rw [wellFormed_digits]
  cases ho : opcodeKnown o with
  | false => simp [decodeDigits_of_unknown r x y ho]
  | true =>
    rcases opcode_cases ho with rfl | rfl | rfl | rfl | rfl | rfl | rfl | rfl
    case inr.inr.inr.inl =>
      by_cases hr : r = 0x0#4 <;> simp [decodeDigits, hr]
    case inr.inr.inr.inr.inr.inr.inl =>
      cases ht : decimalTarget x y <;> simp [decodeDigits, ht]
    all_goals simp [decodeDigits]

/-- An admitted token is the text of four digits that decode. -/
theorem digits_of_decodeToken {tok : Token} {i : Instr} {img : Byte × Byte} (h : decodeToken tok = .ok i img) :
    ∃ o r x y : Nibble, tok = [hexChar o, hexChar r, hexChar x, hexChar y] ∧ decodeDigits o r x y = .ok i img := by
  unfold decodeToken at h
  split at h
  case h_2 => cases h
  case h_1 c1 c2 c3 c4 =>
    unfold decodeChars at h
    split at h
    case h_2 => cases h
    case h_1 op hop =>
      split_ifs at h
      split at h
      case h_2 => split_ifs at h
      case h_1 r x y hr hx hy =>
        refine ⟨op, r, x, y, ?_, h⟩
        rw [eq_hexChar_of_classify hop, eq_hexChar_of_classify hr, eq_hexChar_of_classify hx,
          eq_hexChar_of_classify hy]

/-- Settles O7: an admitted token is four digits, and they are a well-formed word exactly where they decode. -/
theorem admittedTokensAreWellFormedWords : Obligations.AdmittedTokensAreWellFormedWords := by
  intro tok
  constructor
  · rintro ⟨i, img, h⟩
    obtain ⟨o, r, x, y, rfl, hd⟩ := digits_of_decodeToken h
    exact ⟨o ++ r ++ x ++ y, (decodeDigits_ok_iff o r x y).mp ⟨i, img, hd⟩, (wordToToken_digits o r x y).symm⟩
  · rintro ⟨w, hw, rfl⟩
    obtain ⟨o, r, x, y, rfl⟩ := exists_digits w
    rw [wordToToken_digits, decodeToken_hexChars]
    exact (decodeDigits_ok_iff o r x y).mpr hw

/-- Settles O8: the image holds the digits that the token writes out. -/
theorem imageIsTheTokenText : Obligations.ImageIsTheTokenText := by
  intro tok i img h
  obtain ⟨o, r, x, y, rfl, hd⟩ := digits_of_decodeToken h
  rw [image_of_decodeDigits hd, byteToHex_pair, byteToHex_pair]
  rfl

/-- Settles O9, by the digits of the word. -/
theorem operandAssembly : Obligations.OperandAssembly := by
  intro r x y
  simp only [decodeWord_digits]
  refine ⟨rfl, rfl, rfl, rfl, fun hr i img h => ?copyDigit, rfl, rfl, fun t hx hy ht => ?target, rfl⟩
  case copyDigit => simp [decodeDigits, hr] at h
  case target =>
    have hdec : decimalTarget x y = some t := by
      rw [decimalTarget, dif_pos ⟨hx, hy⟩]
      exact congrArg some (Fin.ext ht.symm)
    simp [decodeDigits, hdec]

/-- Settles O14: the tokens are closed, and each is decoded by evaluation. -/
theorem sampleTokensDecode : Obligations.SampleTokensDecode := by
  refine ⟨?_, ?_, ?_, ?_, ?_, ?_, ?_, ?_, ?_⟩ <;> decide

/-! ### Malformed tokens (30_encoding.md R94 to R96) -/

/-- A listed opcode before three characters that are not all uppercase hex: the worst class among them decides. -/
theorem decodeToken_of_not_uhex {op : Nibble} (hop : opcodeKnown op = true) {c2 c3 c4 : Byte}
    (h : ¬∃ r x y, classify c2 = .uhex r ∧ classify c3 = .uhex x ∧ classify c4 = .uhex y) :
    decodeToken [hexChar op, c2, c3, c4] =
      if classify c2 = .other ∨ classify c3 = .other ∨ classify c4 = .other then .skip .invalidEncoding
      else .refuse .lowercaseHexDigit := by
  simp only [decodeToken, decodeChars, classify_hexChar, if_pos hop]
  split
  case h_1 r x y hr hx hy => exact absurd ⟨r, x, y, hr, hx, hy⟩ h
  case h_2 => rfl

/-- A listed opcode before three uppercase hex characters: their digits decide. -/
theorem decodeToken_of_uhex (op : Nibble) {c2 c3 c4 : Byte} {r x y : Nibble} (h2 : classify c2 = .uhex r)
    (h3 : classify c3 = .uhex x) (h4 : classify c4 = .uhex y) :
    decodeToken [hexChar op, c2, c3, c4] = decodeDigits op r x y := by
  rw [eq_hexChar_of_classify h2, eq_hexChar_of_classify h3, eq_hexChar_of_classify h4, decodeToken_hexChars]

/-- Settles O12, clause by clause: by the classes of the three characters, then by their digits. -/
theorem malformedTokensByTheirFirstFault : Obligations.MalformedTokensByTheirFirstFault := by
  intro op c2 c3 c4 hop
  refine ⟨fun hother => ?notHex, fun hother hlower => ?lowercase,
    fun r x y h2 h3 h4 => ⟨fun hcopy hr => ?copyDigit, fun hjump hxy => ?target⟩⟩
  case notHex =>
    have hmem : classify c2 = .other ∨ classify c3 = .other ∨ classify c4 = .other := by simpa [eq_comm] using hother
    rw [decodeToken_of_not_uhex hop, if_pos hmem]
    rintro ⟨r, x, y, h2, h3, h4⟩
    simp [h2, h3, h4] at hmem
  case lowercase =>
    have hmem : ¬(classify c2 = .other ∨ classify c3 = .other ∨ classify c4 = .other) := by simpa [eq_comm] using hother
    rw [decodeToken_of_not_uhex hop, if_neg hmem]
    rintro ⟨r, x, y, h2, h3, h4⟩
    simp [h2, h3, h4] at hlower
  case copyDigit =>
    subst hcopy
    rw [decodeToken_of_uhex _ h2 h3 h4]
    simp [decodeDigits, hr]
  case target =>
    subst hjump
    have hnone : decimalTarget x y = none := dif_neg (by omega)
    rw [decodeToken_of_uhex _ h2 h3 h4]
    simp [decodeDigits, hnone]

/-! ### The encoder (30_encoding.md section 5) -/

theorem wordImage_operand (o r : Nibble) (v : Byte) : wordImage (o ++ r ++ v) = (o ++ r, v) := by
  rw [operand_eq_digits, wordImage_digits, byte_of_digits]

/-- The binary form of `Decode` reads every encoded instruction back, with the image of its word. -/
theorem decodeWord_encode (i : Instr) : decodeWord (encode i) = .ok i (wordImage (encode i)) := by
  cases i with
  | loadMem r a => rw [encode, DataTransfer.decodeWord_loadMem, wordImage_operand]
  | loadImm r v => rw [encode, DataTransfer.decodeWord_loadImm, wordImage_operand]
  | store r a => rw [encode, DataTransfer.decodeWord_store, wordImage_operand]
  | copy d => rw [encode, Execution.decodeWord_copy, wordImage_digits]
  | addInt d s t => rw [encode, Arithmetic.decodeWord_addInt, wordImage_digits]
  | addFloat d s t => rw [encode, FloatCodec.decodeWord_addFloat, wordImage_digits]
  | jumpEq r t => rw [encode, Execution.decodeWord_jumpEq, wordImage_digits]
  | halt => rw [encode_halt, ControlTransfer.decodeWord_halt, wordImage_digits]

/-- Settles O5: an instruction's token decodes as its word does. -/
theorem decodeOfEncode : Obligations.DecodeOfEncode :=
  fun i => (tokenAndWordDecodeAlike (encode i)).trans (decodeWord_encode i)

/-! ### The placing of a word (log entry 11) -/

/-- An opcode-table word of 16 bits decodes as the word itself. -/
theorem decodeTable_word (w : Word) : decodeTable 16 w.toNat = decodeWord w := by
  have hw : BitVec.ofNat 16 (w.toNat % 2 ^ 16) = w := by
    rw [Nat.mod_eq_of_lt w.isLt, BitVec.ofNat_toNat, BitVec.setWidth_eq]
  rw [decodeTable, if_pos le_rfl, hw, tokenAndWordDecodeAlike]

/-- A placed instruction is in the slot of the pc, an old one or a new last one. -/
theorem placeNext_executes (s : State) (i : Instr) : (s.placeNext i).Executes i := by
  unfold State.placeNext
  split_ifs with hslot
  · exact ⟨⟨rfl, rfl⟩, fetch_eq_some.mpr ⟨hslot.1, List.getElem?_set_self hslot.2⟩⟩
  · exact ⟨⟨rfl, rfl⟩, fetch_eq_some.mpr ⟨Int.natCast_nonneg _, by simp⟩⟩

/-- Settles O16: the word decodes to its instruction, which is placed. -/
theorem placedWordIsExecutedNext : Obligations.PlacedWordIsExecutedNext := by
  intro s i
  have hdecode : decodeTable 16 (encode i).toNat = .ok i (wordImage (encode i)) := by
    rw [decodeTable_word, decodeWord_encode]
  refine ⟨by simp only [decodeTableWord, hdecode], ?_⟩
  simp only [State.withFetchWord, hdecode]
  exact placeNext_executes s i

/-! ### The tokenizer (30_encoding.md R86) -/

/-- The whitespace characters, by their codes. -/
theorem isSpace_iff (c : Byte) :
    isSpace c = true ↔ c ∈ [0x20#8, 0x09#8, 0x0A#8, 0x0B#8, 0x0C#8, 0x0D#8] := by
  revert c; decide

section
variable {cur tok : Token} {rest : List Token} {c : Byte} {cs text : List Byte}

theorem pushToken_nil (rest : List Token) : pushToken [] rest = rest := rfl

theorem pushToken_of_ne_nil (h : cur ≠ []) (rest : List Token) : pushToken cur rest = cur :: rest := by
  simp [pushToken, h]

theorem mem_pushToken (h : tok ∈ pushToken cur rest) : (tok = cur ∧ cur ≠ []) ∨ tok ∈ rest := by
  by_cases hcur : cur = []
  · exact .inr (by simpa [hcur, pushToken_nil] using h)
  · rw [pushToken_of_ne_nil hcur, List.mem_cons] at h
    exact h.imp_left fun htok => ⟨htok, hcur⟩

theorem flatten_pushToken (cur : Token) (rest : List Token) : (pushToken cur rest).flatten = cur ++ rest.flatten := by
  by_cases hcur : cur = []
  · rw [hcur, pushToken_nil, List.nil_append]
  · rw [pushToken_of_ne_nil hcur, List.flatten_cons]

theorem pushToken_append (cur : Token) (rest rest' : List Token) :
    pushToken cur rest ++ rest' = pushToken cur (rest ++ rest') := by
  by_cases hcur : cur = []
  · rw [hcur, pushToken_nil, pushToken_nil]
  · rw [pushToken_of_ne_nil hcur, pushToken_of_ne_nil hcur, List.cons_append]

theorem splitTokensFrom_space (cur : Token) (h : isSpace c = true) (cs : List Byte) :
    splitTokensFrom cur (c :: cs) = pushToken cur (splitTokens cs) := by
  simp [splitTokensFrom, splitTokens, h]

theorem splitTokensFrom_nonspace (cur : Token) (h : isSpace c = false) (cs : List Byte) :
    splitTokensFrom cur (c :: cs) = splitTokensFrom (cur ++ [c]) cs := by
  simp [splitTokensFrom, h]

/-- No token is empty or holds whitespace. -/
theorem token_of_mem_splitTokensFrom (hcur : ∀ c ∈ cur, isSpace c = false) (h : tok ∈ splitTokensFrom cur text) :
    tok ≠ [] ∧ ∀ c ∈ tok, isSpace c = false := by
  induction text generalizing cur with
  | nil =>
    rcases mem_pushToken h with ⟨rfl, hne⟩ | hrest
    · exact ⟨hne, hcur⟩
    · cases hrest
  | cons c cs ih =>
    cases hc : isSpace c with
    | true =>
      rw [splitTokensFrom_space cur hc] at h
      rcases mem_pushToken h with ⟨rfl, hne⟩ | hrest
      · exact ⟨hne, hcur⟩
      · exact ih (by simp) hrest
    | false =>
      rw [splitTokensFrom_nonspace cur hc] at h
      refine ih (fun d hd => ?_) h
      rcases List.mem_append.mp hd with hd | hd
      · exact hcur d hd
      · rw [List.mem_singleton.mp hd, hc]

/-- The tokens hold all the characters but whitespace, in their order. -/
theorem flatten_splitTokensFrom (text : List Byte) : ∀ cur : Token,
    (splitTokensFrom cur text).flatten = cur ++ text.filter fun c => !isSpace c := by
  induction text with
  | nil => exact fun cur => flatten_pushToken cur []
  | cons c cs ih =>
    intro cur
    cases hc : isSpace c with
    | true => rw [splitTokensFrom_space cur hc, flatten_pushToken, splitTokens, ih]; simp [hc]
    | false => rw [splitTokensFrom_nonspace cur hc, ih]; simp [hc]

/-- Whitespace separates, wherever it stands. -/
theorem splitTokensFrom_append_space (h : isSpace c = true) (b a : List Byte) : ∀ cur : Token,
    splitTokensFrom cur (a ++ c :: b) = splitTokensFrom cur a ++ splitTokens b := by
  induction a with
  | nil =>
    intro cur
    rw [List.nil_append, splitTokensFrom_space cur h, splitTokensFrom, pushToken_append, List.nil_append]
  | cons d ds ih =>
    intro cur
    cases hd : isSpace d with
    | true =>
      rw [List.cons_append, splitTokensFrom_space cur hd, splitTokensFrom_space cur hd, pushToken_append]
      exact congrArg (pushToken cur) (ih [])
    | false => rw [List.cons_append, splitTokensFrom_nonspace cur hd, splitTokensFrom_nonspace cur hd, ih]

/-- Characters without whitespace between them join the token under way. -/
theorem splitTokensFrom_nonspaces (text : List Byte) (h : ∀ c ∈ text, isSpace c = false) : ∀ cur : Token,
    splitTokensFrom cur text = pushToken (cur ++ text) [] := by
  induction text with
  | nil => intro cur; rw [splitTokensFrom, List.append_nil]
  | cons c cs ih =>
    intro cur
    rw [splitTokensFrom_nonspace cur (h c (by simp)), ih fun d hd => h d (by simp [hd])]
    simp

end

/-- Settles O15: each clause by induction over the text, with any characters already under way. -/
theorem tokensOfAText : Obligations.TokensOfAText := by
  refine ⟨isSpace_iff, fun text tok h => token_of_mem_splitTokensFrom (by simp) h,
    fun text => flatten_splitTokensFrom text [], fun a b c h => splitTokensFrom_append_space h b a [],
    fun tok hne h => ?single⟩
  case single => rw [splitTokens, splitTokensFrom_nonspaces tok h, List.nil_append, pushToken_of_ne_nil hne]

end Sys2Proof.Words
